-- ==== Sys2Proof/Word.lean ====
section
/-!
DEFINITION. The value types of the packets: 32-bit words, 8-bit header fields, the acceptance filter and the frame.
Spec: 00_scope.md R6 and R12 (u32 values), 30_encoding.md R71, R74, R82, 40_filter_synth.md R101.
-/

namespace Sys2Proof

/-- A packet word, and every identifier, mask, operand and handler token: an unsigned 32-bit number (R6 XLEN, HLEN; R70). -/
abbrev Word := BitVec 32

/-- The header fields `OP`, `IDX`, `LID` and `RSV`: unsigned 8-bit numbers (R71, R74). -/
abbrev Byte := BitVec 8

/-- An acceptance filter, the triple (id, mask, extended) of R101. -/
structure Filter where
  id : Word
  mask : Word
  extended : Bool
  deriving DecidableEq, Repr

/-- A frame: six words carried through the block bit for bit (R75, R82). Its named fields are read in
Machine/Operands.lean; the block itself reads none of them (44_dispatch.md R173). -/
structure Frame where
  fw0 : Word
  fw1 : Word
  fw2 : Word
  fw3 : Word
  fw4 : Word
  fw5 : Word
  deriving DecidableEq, Repr

end Sys2Proof
end

