-- ==== Sys2Proof/Config.lean ====
section
/-!
DEFINITION. What is fixed when a block is built (00_scope.md R6, R7) and the one free value the spec leaves open
(45_watch.md R186). The parameters are plain data: State holds them in a field that no step changes, so that a
statement over every state is a statement over every admitted NF, NL and WATCH_ALL_FILTER.
-/

namespace Sys2Proof

/-- The parameters of a block that are not fixed numbers (R6). -/
structure Params where
  /-- `NF`, the number of mailboxes. -/
  nf : Nat
  /-- `NL`, the number of listener handles. -/
  nl : Nat
  /-- `WATCH_ALL_FILTER`, the filter WATCH.ALL forwards (R187, D24). -/
  watchAll : Filter
  deriving DecidableEq, Repr

/-- The bounds of R6: 1 ≤ NF ≤ 31 and 1 ≤ NL ≤ 256. -/
abbrev Params.Admitted (p : Params) : Prop :=
  1 ≤ p.nf ∧ p.nf ≤ 31 ∧ 1 ≤ p.nl ∧ p.nl ≤ 256

/-- The block that `State.reset` is: NF = 8 (R6's default), NL = 8 and WATCH_ALL_FILTER = (0, 0, false).
DESIGN CHOICE (log entries 2 and 3): R6 leaves NL and the filter open; unsafe only for a statement about this one block,
safe for statements over every `Params`. -/
def Params.standard : Params := { nf := 8, nl := 8, watchAll := ⟨0, 0, false⟩ }

/-- The driver's reply to the n-th FPROG event for which no reply word stands at the port: a free value with no body
(R186: "a free 32-bit input of the step"; log entry 5). -/
opaque Config.drvStat : Nat → Word

end Sys2Proof
end

