-- ==== Sys2Proof/Syntax.lean ====
section
/-!
DEFINITION. The 19 commands as syntax: one constructor per row of spec/opcode_table.json, its arguments the operands
that 30_encoding.md R76 and R83 give the row, in R83's order.
-/

namespace Sys2Proof

/-- A command. `lid` is a listener handle, `idx` a mailbox index (a mask bit index in `isEn`), each an 8-bit header
field (R71); words are operand words, used as sent (R74). -/
inductive Instr where
  /-- `SYN.ID id` (40_filter_synth.md R103). -/
  | synId (id : Word)
  /-- `SYN.IDM id, mask` (R104). -/
  | synIdm (id mask : Word)
  /-- `SYN.RNG lo, hi`, the bounds in either order (R105, R106). -/
  | synRng (a b : Word)
  /-- `WATCH.ALL` (45_watch.md R187). -/
  | watchAll
  /-- `WATCH.ID id` (R188). -/
  | watchId (id : Word)
  /-- `WATCH.IDM id, mask` (R189). -/
  | watchIdm (id mask : Word)
  /-- `WATCH.RNG lo, hi` (R190). -/
  | watchRng (a b : Word)
  /-- `SET.MBCB m, h` (42_callbacks.md R141). -/
  | setMbcb (idx : Byte) (h : Word)
  /-- `CLR.MBCB m` (R142). -/
  | clrMbcb (idx : Byte)
  /-- `SET.GCB h` (R143). -/
  | setGcb (h : Word)
  /-- `ATTACH l` (41_listener_registry.md R131). -/
  | attach (lid : Byte)
  /-- `DETACH l` (R132). -/
  | detach (lid : Byte)
  /-- `EN.MB l, m` (43_listener_masks.md R151). -/
  | enMb (lid idx : Byte)
  /-- `DIS.MB l, m` (R152). -/
  | disMb (lid idx : Byte)
  /-- `EN.GEN l` (R153). -/
  | enGen (lid : Byte)
  /-- `DIS.GEN l` (R154). -/
  | disGen (lid : Byte)
  /-- `IS.EN l, i` (R155). -/
  | isEn (lid idx : Byte)
  /-- `DISPATCH m, F` (44_dispatch.md R166). -/
  | dispatch (idx : Byte) (frame : Frame)
  /-- `RD.DROP` (R176). -/
  | rdDrop
  deriving DecidableEq, Repr

end Sys2Proof
end

