-- ==== Sys2Proof/Decode.lean ====
section
/-!
DEFINITION. Command packets to commands and back: 30_encoding.md R71 to R77. A packet is a list of 32-bit words; how a
bus carries a word as bytes is outside the block (20_memory.md R53), so decoding works on words. The encoder stands
after the decoder.
-/

namespace Sys2Proof

/-- The four packet formats of R72. -/
inductive Format where
  | z
  | a1
  | a2
  | fr
  deriving DecidableEq, Repr

/-- The number of words of a packet of this format, its header included (R72). -/
def Format.words : Format → Nat
  | .z => 1
  | .a1 => 2
  | .a2 => 3
  | .fr => 7

/-- The 19 assigned opcodes, in the order of R76. -/
inductive Op where
  | synId | synIdm | synRng
  | watchAll | watchId | watchIdm | watchRng
  | setMbcb | clrMbcb | setGcb
  | attach | detach
  | enMb | disMb | enGen | disGen | isEn
  | dispatch | rdDrop
  deriving DecidableEq, Repr

/-- Every row of R76. -/
def Op.all : List Op :=
  [.synId, .synIdm, .synRng, .watchAll, .watchId, .watchIdm, .watchRng, .setMbcb, .clrMbcb, .setGcb] ++
  [.attach, .detach, .enMb, .disMb, .enGen, .disGen, .isEn, .dispatch, .rdDrop]

/-- The `OP` column of R76. -/
def Op.code : Op → Byte
  | .synId => 0x01
  | .synIdm => 0x02
  | .synRng => 0x03
  | .watchAll => 0x08
  | .watchId => 0x09
  | .watchIdm => 0x0A
  | .watchRng => 0x0B
  | .setMbcb => 0x10
  | .clrMbcb => 0x11
  | .setGcb => 0x12
  | .attach => 0x20
  | .detach => 0x21
  | .enMb => 0x28
  | .disMb => 0x29
  | .enGen => 0x2A
  | .disGen => 0x2B
  | .isEn => 0x2C
  | .dispatch => 0x30
  | .rdDrop => 0x38

/-- The format column of R76. -/
def Op.format : Op → Format
  | .synId | .watchId | .setMbcb | .setGcb => .a1
  | .synIdm | .synRng | .watchIdm | .watchRng => .a2
  | .dispatch => .fr
  | .watchAll | .clrMbcb | .attach | .detach | .enMb | .disMb | .enGen | .disGen | .isEn | .rdDrop => .z

/-- Whether the row's `IDX` column names a use (R76); a field marked "—" must be 0 (R77 case 3). -/
def Op.usesIdx : Op → Bool
  | .setMbcb | .clrMbcb | .enMb | .disMb | .isEn | .dispatch => true
  | .synId | .synIdm | .synRng | .watchAll | .watchId | .watchIdm | .watchRng | .setGcb | .attach | .detach
  | .enGen | .disGen | .rdDrop => false

/-- Whether the row's `LID` column names a use (R76). -/
def Op.usesLid : Op → Bool
  | .attach | .detach | .enMb | .disMb | .enGen | .disGen | .isEn => true
  | .synId | .synIdm | .synRng | .watchAll | .watchId | .watchIdm | .watchRng | .setMbcb | .clrMbcb | .setGcb
  | .dispatch | .rdDrop => false

/-- The `mask` column of R76, as the table prints it; the decoder does not use it (an obligation says that the field
checks select the same rows). -/
def Op.mask : Op → Word
  | .synId | .synIdm | .synRng | .watchAll | .watchId | .watchIdm | .watchRng | .setGcb | .rdDrop => 0xFFFFFFFF
  | .setMbcb | .clrMbcb | .dispatch => 0xFFFF00FF
  | .attach | .detach | .enGen | .disGen => 0xFF00FFFF
  | .enMb | .disMb | .isEn => 0xFF0000FF

/-- The `match` column of R76, as the table prints it. -/
def Op.pattern : Op → Word
  | .synId => 0x00000001
  | .synIdm => 0x00000002
  | .synRng => 0x00000003
  | .watchAll => 0x00000008
  | .watchId => 0x00000009
  | .watchIdm => 0x0000000A
  | .watchRng => 0x0000000B
  | .setMbcb => 0x00000010
  | .clrMbcb => 0x00000011
  | .setGcb => 0x00000012
  | .attach => 0x00000020
  | .detach => 0x00000021
  | .enMb => 0x00000028
  | .disMb => 0x00000029
  | .enGen => 0x0000002A
  | .disGen => 0x0000002B
  | .isEn => 0x0000002C
  | .dispatch => 0x00000030
  | .rdDrop => 0x00000038

/-- The row of an opcode byte, if it is assigned. -/
def Op.ofCode (b : Byte) : Option Op :=
  Op.all.find? fun o => o.code == b

/-- Header bits [7:0] (R71). -/
def hdrOp (h : Word) : Byte := h.extractLsb' 0 8

/-- Header bits [15:8] (R71). -/
def hdrIdx (h : Word) : Byte := h.extractLsb' 8 8

/-- Header bits [23:16] (R71). -/
def hdrLid (h : Word) : Byte := h.extractLsb' 16 8

/-- Header bits [31:24] (R71). -/
def hdrRsv (h : Word) : Byte := h.extractLsb' 24 8

/-- Why a packet is Illegal: the five cases of R77, in the order they are checked. -/
inductive IllegalCase where
  /-- Case 1: `OP` is none of the 19 values. -/
  | unknownOpcode
  /-- Case 2: `RSV ≠ 0`. -/
  | reservedField
  /-- Case 3: a header field the command does not use is not 0. -/
  | unusedField
  /-- Case 4: the command uses `LID` and `LID >= NL`. -/
  | unknownListener
  /-- Case 5: IS.EN with `IDX > NF`, or DISPATCH with `IDX >= NF`. -/
  | outOfDomain
  deriving DecidableEq, Repr

/-- The words a packet takes, decided by its header's `OP` alone (R73). -/
def packetWords (h : Word) : Nat :=
  match Op.ofCode (hdrOp h) with
  | none => 1
  | some o => o.format.words

/-- R77 cases 2 and 3 for a header whose `OP` is the row `o`. -/
def headerFault (o : Op) (h : Word) : Option IllegalCase :=
  if hdrRsv h ≠ 0 then some .reservedField
  else if (!o.usesIdx && hdrIdx h != 0) || (!o.usesLid && hdrLid h != 0) then some .unusedField
  else none

/-- The frame of a FR packet from its operand words `FW0..FW5` (R72, R82). -/
def frameOf (ws : List Word) : Frame :=
  ⟨ws.getD 0 0, ws.getD 1 0, ws.getD 2 0, ws.getD 3 0, ws.getD 4 0, ws.getD 5 0⟩

/-- The command of row `o` with header `h` and operand words `ws` (R74). Only called when `ws` holds at least the
operand words of the row's format. -/
def buildInstr (o : Op) (h : Word) (ws : List Word) : Instr :=
  match o with
  | .synId => .synId (ws.getD 0 0)
  | .synIdm => .synIdm (ws.getD 0 0) (ws.getD 1 0)
  | .synRng => .synRng (ws.getD 0 0) (ws.getD 1 0)
  | .watchAll => .watchAll
  | .watchId => .watchId (ws.getD 0 0)
  | .watchIdm => .watchIdm (ws.getD 0 0) (ws.getD 1 0)
  | .watchRng => .watchRng (ws.getD 0 0) (ws.getD 1 0)
  | .setMbcb => .setMbcb (hdrIdx h) (ws.getD 0 0)
  | .clrMbcb => .clrMbcb (hdrIdx h)
  | .setGcb => .setGcb (ws.getD 0 0)
  | .attach => .attach (hdrLid h)
  | .detach => .detach (hdrLid h)
  | .enMb => .enMb (hdrLid h) (hdrIdx h)
  | .disMb => .disMb (hdrLid h) (hdrIdx h)
  | .enGen => .enGen (hdrLid h)
  | .disGen => .disGen (hdrLid h)
  | .isEn => .isEn (hdrLid h) (hdrIdx h)
  | .dispatch => .dispatch (hdrIdx h) (frameOf ws)
  | .rdDrop => .rdDrop

/-- What the words at the command port read as. `n` is the number of words the packet takes (R73). -/
inductive Decoded where
  /-- A command. -/
  | instr (i : Instr) (n : Nat)
  /-- An Illegal packet by its header: R77 cases 1 to 3. -/
  | illegal (c : IllegalCase) (n : Nat)
  /-- Not yet a whole packet. -/
  | incomplete
  deriving DecidableEq, Repr

/-- Decode the packet at the front of a list of words (R73, R76, R77 cases 1 to 3). Total. -/
def decode : List Word → Decoded
  | [] => .incomplete
  | h :: ws =>
    match Op.ofCode (hdrOp h) with
    | none => .illegal .unknownOpcode 1
    | some o =>
      if ws.length + 1 < o.format.words then .incomplete
      else
        match headerFault o h with
        | some c => .illegal c o.format.words
        | none => .instr (buildInstr o h ws) o.format.words

/-- The row of a command (R76). -/
def Instr.op : Instr → Op
  | .synId _ => .synId
  | .synIdm _ _ => .synIdm
  | .synRng _ _ => .synRng
  | .watchAll => .watchAll
  | .watchId _ => .watchId
  | .watchIdm _ _ => .watchIdm
  | .watchRng _ _ => .watchRng
  | .setMbcb _ _ => .setMbcb
  | .clrMbcb _ => .clrMbcb
  | .setGcb _ => .setGcb
  | .attach _ => .attach
  | .detach _ => .detach
  | .enMb _ _ => .enMb
  | .disMb _ _ => .disMb
  | .enGen _ => .enGen
  | .disGen _ => .disGen
  | .isEn _ _ => .isEn
  | .dispatch _ _ => .dispatch
  | .rdDrop => .rdDrop

/-- The header word `{RSV = 0, LID, IDX, OP}` (R71). -/
def headerWord (o : Op) (lid idx : Byte) : Word :=
  0#8 ++ lid ++ idx ++ o.code

/-- The packet of a command (R71, R72, R76). -/
def encode : Instr → List Word
  | .synId a => [headerWord .synId 0 0, a]
  | .synIdm a b => [headerWord .synIdm 0 0, a, b]
  | .synRng a b => [headerWord .synRng 0 0, a, b]
  | .watchAll => [headerWord .watchAll 0 0]
  | .watchId a => [headerWord .watchId 0 0, a]
  | .watchIdm a b => [headerWord .watchIdm 0 0, a, b]
  | .watchRng a b => [headerWord .watchRng 0 0, a, b]
  | .setMbcb m h => [headerWord .setMbcb 0 m, h]
  | .clrMbcb m => [headerWord .clrMbcb 0 m]
  | .setGcb h => [headerWord .setGcb 0 0, h]
  | .attach l => [headerWord .attach l 0]
  | .detach l => [headerWord .detach l 0]
  | .enMb l m => [headerWord .enMb l m]
  | .disMb l m => [headerWord .disMb l m]
  | .enGen l => [headerWord .enGen l 0]
  | .disGen l => [headerWord .disGen l 0]
  | .isEn l i => [headerWord .isEn l i]
  | .dispatch m f => [headerWord .dispatch 0 m, f.fw0, f.fw1, f.fw2, f.fw3, f.fw4, f.fw5]
  | .rdDrop => [headerWord .rdDrop 0 0]

/-- The low `32 * k` bits of a number as `k` words, the first word from the least significant bits. -/
def wordsOf : Nat → Nat → List Word
  | 0, _ => []
  | k + 1, v => BitVec.ofNat 32 v :: wordsOf k (v / 2 ^ 32)

/-- The packet whose bits are `w`, numbered as spec/opcode_table.json numbers them, the bits from `nbits` on being 0: its
first word is the header, and the packet is as long as that header says (R73). -/
def tablePacket (nbits w : Nat) : List Word :=
  let ws := wordsOf 7 (w % 2 ^ nbits)
  ws.take (packetWords (ws.getD 0 0))

/-- The command that the decoder reads from the packet `tablePacket nbits w`. -/
def decodeTableWord (nbits w : Nat) : Option Instr :=
  match decode (tablePacket nbits w) with
  | .instr i _ => some i
  | .illegal _ _ => none
  | .incomplete => none

end Sys2Proof
end

