-- ==== Sys2Proof/Machine/State.lean ====
section
/-!
DEFINITION. The state of the block as plain data, the state after reset, and the two ways a step can stop.
Spec: 10_state.md R24 to R29 and R35; the packets on the ports are those of 30_encoding.md R78, R80 and R81.
-/

namespace Sys2Proof.Machine

/-- The outcome a response reports (R79). The numbers are in Machine/Packets.lean. -/
inductive Status where
  | ok
  | invalidMailbox
  | registryFull
  | notFound
  | illegal
  deriving DecidableEq, Repr

/-- A response packet: a status and three result words (R78). -/
structure Response where
  status : Status
  r0 : Word
  r1 : Word
  r2 : Word
  deriving DecidableEq, Repr

/-- The kinds of delivery, in the order of the four steps of DISPATCH (R80). -/
inductive DeliveryKind where
  | cbMb
  | lsMb
  | cbGen
  | lsGen
  deriving DecidableEq, Repr

/-- An event leaving the block: a delivery (R80) or a filter program for the driver (R81). -/
inductive Event where
  | deliv (kind : DeliveryKind) (mbx : Byte) (target : Word) (frame : Frame)
  | fprog (filter : Filter)
  deriving DecidableEq, Repr

/-- What comes in: a word on the command port (R70), or the reset input asserted between commands (70_reset_and_hazards.md
R230, R231). -/
inductive Input where
  | word (w : Word)
  | reset
  deriving DecidableEq, Repr

/-- The whole machine. The first field is the block's fixed parameters, the next five are the architectural state of R24,
and the last five are the ports: what has still to come in, and what has left, oldest first. -/
structure State where
  /-- NF, NL and WATCH_ALL_FILTER (00_scope.md R6, R7): no step changes them. -/
  params : Params
  /-- `MBCB[m]` for m in `0..NF-1`; `none` is `v = 0`, `some h` is `v = 1` with token h (R25, R32). -/
  mbcb : List (Option Word)
  /-- `GCB` (R26). -/
  gcb : Option Word
  /-- `SLOT[s]` for s in `0..3`; `none` is a free slot (R27). -/
  slots : Vector (Option Byte) 4
  /-- `LMASK[l]` for l in `0..NL-1`; bit m is mailbox m, bit NF the general bit (R28). -/
  lmask : List Word
  /-- `DROPS` (R29). -/
  drops : Word
  /-- Words and resets still to come, the next one first. -/
  inputs : List Input
  /-- Driver reply words standing at the filter-program port, the next one first (R81). -/
  drvIn : List Word
  /-- How many free driver replies have been drawn (the model's own counter, log entry 5). -/
  drvDraws : Nat
  /-- Every response sent (R78). -/
  responses : List Response
  /-- Every event sent (R80, R81). -/
  events : List Event
  deriving DecidableEq, Repr

/-- The reset state of R35 for a block with parameters `p`, with nothing on any port. The entries whose `v` is 0 hold no
token or handle (R32). -/
def State.resetOf (p : Params) : State where
  params := p
  mbcb := List.replicate p.nf none
  gcb := none
  slots := #v[none, none, none, none]
  lmask := List.replicate p.nl 0
  drops := 0
  inputs := []
  drvIn := []
  drvDraws := 0
  responses := []
  events := []

/-- The machine right after reset (R35), for the standard parameters (log entries 2, 3). -/
def State.reset : State := State.resetOf Params.standard

/-- Why a step stops with a fault. -/
inductive Fault where
  /-- The packet is Illegal (30_encoding.md R77). Raised by `step` for a header of no row (cases 1 to 3), by the seven
  commands with a listener handle for `LID >= NL` (case 4), and by IS.EN and DISPATCH for an index outside their domain
  (case 5). The spec asks a model to make this outcome a fault (00_scope.md R9, 60_exceptions.md R203, D38). `answered` is
  the state in which the hardware has answered status 0xFF and changed nothing else. Safe: no run goes on from it. -/
  | illegal (c : IllegalCase) (answered : State)
  deriving DecidableEq, Repr

/-- Why a step gives no meaning. -/
inductive Refusal where
  /-- An instruction that has no meaning yet. Raised by `exec` only. Safe. -/
  | notModelled (mnemonic : String)
  /-- Reset is asserted while a packet is still arriving: 70_reset_and_hazards.md R231 says what happens then is not
  specified, and V6 asks a model to refuse it. Raised by `step`. Safe. -/
  | resetDuringCommand
  deriving DecidableEq, Repr

/-- What a meaning answers. -/
abbrev Outcome := Host.Outcome State Fault Refusal

end Sys2Proof.Machine
end

