-- ==== Sys2Proof/Machine/Flags.lean ====
section
/-!
DEFINITION. The block has no condition codes, flags or predicates (10_state.md R22), so there is no flag computation.
What a system around the block can test is the wire GCB_PRESENT (R31) and the derived notions of R30, which stand here.
-/

namespace Sys2Proof.Machine

/-- The output wire `GCB_PRESENT`: at every moment `GCB.v` (R31). -/
def State.gcbPresent (s : State) : Bool := s.gcb.isSome

/-- Handle l is attached: some valid slot holds it (R30). -/
def State.isAttached (s : State) (l : Byte) : Bool := s.slots.toList.contains (some l)

/-- The number of valid slots (R32, R135). -/
def State.validSlots (s : State) : Nat := s.slots.toList.countP (·.isSome)

/-- The registry is full: no slot is free (R30). -/
def State.isFull (s : State) : Bool := s.slots.toList.all (·.isSome)

end Sys2Proof.Machine
end

