-- ==== Sys2Proof/Machine/Operands.lean ====
section
/-!
DEFINITION. Operand forms: the ranges of the index spaces (20_memory.md R51, R52), and the named fields and payload
views of a frame (30_encoding.md R82, 20_memory.md R54). The block reads no field of a frame (44_dispatch.md R173); the
views are defined for the delivery sink.
-/

namespace Sys2Proof.Machine

/-- A mailbox index of this block: `m < NF` (R51). -/
def State.isMailbox (s : State) (m : Byte) : Bool := decide (m.toNat < s.params.nf)

/-- A mask bit index of this block: `i <= NF` (R51). -/
def State.isMaskBit (s : State) (i : Byte) : Bool := decide (i.toNat ≤ s.params.nf)

/-- A listener handle of this block: `l < NL` (R51, R130). -/
def State.isListener (s : State) (l : Byte) : Bool := decide (l.toNat < s.params.nl)

/-- The four slot indices in ascending order (R27, R51). -/
def slotIndices : List (Fin 4) := [0, 1, 2, 3]

/-- The identifier, FW0 (R82). -/
def frameId (f : Frame) : Word := f.fw0

/-- The family/grouping identifier, FW1 (R82). -/
def frameFid (f : Frame) : Word := f.fw1

/-- The receipt timestamp, FW2 (R82). -/
def frameTimestamp (f : Frame) : Word := f.fw2

/-- The extended flag, FW3 bit 0 (R82). -/
def frameExtended (f : Frame) : Bool := f.fw3.getLsbD 0

/-- The remote-transmission-request flag, FW3 bit 1 (R82). -/
def frameRtr (f : Frame) : Bool := f.fw3.getLsbD 1

/-- The payload length, FW3 bits [11:8] (R82). -/
def frameLength (f : Frame) : BitVec 4 := f.fw3.extractLsb' 8 4

/-- The TX priority, FW3 bits [23:16] (R82). -/
def framePriority (f : Frame) : Byte := f.fw3.extractLsb' 16 8

/-- Payload byte i, b0 first on the bus: bytes 0 to 3 are FW4, bytes 4 to 7 are FW5, the lower-numbered byte in the less
significant bits (R54, R82). -/
def frameByte (f : Frame) (i : Fin 8) : Byte :=
  if i.val < 4 then f.fw4.extractLsb' (8 * i.val) 8 else f.fw5.extractLsb' (8 * (i.val - 4)) 8

/-- The 32-bit halves of the payload, little-endian: `lo32 = {b3, b2, b1, b0}` (R54, D10). -/
def frameLo32 (f : Frame) : Word := frameByte f 3 ++ frameByte f 2 ++ frameByte f 1 ++ frameByte f 0

/-- `hi32 = {b7, b6, b5, b4}` (R54). -/
def frameHi32 (f : Frame) : Word := frameByte f 7 ++ frameByte f 6 ++ frameByte f 5 ++ frameByte f 4

/-- The four 16-bit words of the payload, little-endian: `s0 = {b1, b0}` (R54). -/
def frameS0 (f : Frame) : BitVec 16 := frameByte f 1 ++ frameByte f 0

/-- `s1 = {b3, b2}` (R54). -/
def frameS1 (f : Frame) : BitVec 16 := frameByte f 3 ++ frameByte f 2

/-- `s2 = {b5, b4}` (R54). -/
def frameS2 (f : Frame) : BitVec 16 := frameByte f 5 ++ frameByte f 4

/-- `s3 = {b7, b6}` (R54). -/
def frameS3 (f : Frame) : BitVec 16 := frameByte f 7 ++ frameByte f 6

end Sys2Proof.Machine
end

