-- ==== Sys2Proof/Machine/Packets.lean ====
section
/-!
DEFINITION. The packets that leave the block, as words: 30_encoding.md R78 to R81. The block has one response packet
per command and one packet per event; State holds them as data and these functions lay them out.
-/

namespace Sys2Proof.Machine

/-- The status numbers of R79. -/
def Status.code : Status → Byte
  | .ok => 0x00
  | .invalidMailbox => 0x01
  | .registryFull => 0x02
  | .notFound => 0x03
  | .illegal => 0xFF

/-- The `KIND` numbers of R80. -/
def DeliveryKind.code : DeliveryKind → BitVec 2
  | .cbMb => 0
  | .lsMb => 1
  | .cbGen => 2
  | .lsGen => 3

/-- A truth value as a result word: 1 or 0 (R78, R81). -/
def boolWord (b : Bool) : Word := if b then 1 else 0

/-- The four words of a response packet (R78). -/
def Response.words (r : Response) : List Word :=
  [r.status.code.setWidth 32, r.r0, r.r1, r.r2]

/-- The words of an event packet: eight for a delivery (R80), three for a filter program (R81). -/
def Event.words : Event → List Word
  | .deliv k m t f =>
    [0#16 ++ m ++ 0#6 ++ k.code, t, f.fw0, f.fw1, f.fw2, f.fw3, f.fw4, f.fw5]
  | .fprog f => [f.id, f.mask, boolWord f.extended]

/-- Whether an event is a delivery to a listener, and to which handle word (R80). -/
def Event.listener? : Event → Option Word
  | .deliv .lsMb _ t _ => some t
  | .deliv .lsGen _ t _ => some t
  | .deliv .cbMb _ _ _ => none
  | .deliv .cbGen _ _ _ => none
  | .fprog _ => none

/-- The kind and target of a delivery (R80). -/
def Event.route? : Event → Option (DeliveryKind × Word)
  | .deliv k _ t _ => some (k, t)
  | .fprog _ => none

end Sys2Proof.Machine
end

