-- ==== Sys2Proof/Machine/Ops.lean ====
section
/-!
DEFINITION. The named operations over the tables and the ports: reading and writing an entry (00_scope.md R12), replying,
emitting, taking an error (`raise`, 60_exceptions.md R204), answering Illegal (R203), the driver's reply (45_watch.md R186)
and the reset input (70_reset_and_hazards.md R230). The block has no other exception mechanism and no return from one
(60_exceptions.md R211, R212).
-/

namespace Sys2Proof.Machine

/-- `reply(ST, r0, r1, r2)`: send one response packet (R12, R78). -/
def State.reply (s : State) (st : Status) (r0 r1 r2 : Word) : State :=
  { s with responses := s.responses ++ [⟨st, r0, r1, r2⟩] }

/-- `reply(OK)`: the result words a command does not define are 0 (R78). -/
def State.replyOk (s : State) : State := s.reply .ok 0 0 0

/-- `reply(OK, id, mask, zext(extended))` of the SYN commands (R78, R101). -/
def State.replyFilter (s : State) (f : Filter) : State :=
  s.reply .ok f.id f.mask (boolWord f.extended)

/-- `emit`: append events to those sent (R12). -/
def State.emit (s : State) (es : List Event) : State := { s with events := s.events ++ es }

/-- `raise X` for the three source errors: the response carries X and zeros, nothing else changes, and the machine goes on
(R202, R204). This is the block's one way of taking an exception. -/
def raiseError (st : Status) (s : State) : Outcome := .next (s.reply st 0 0 0)

/-- `raise Illegal`: the hardware answers 0xFF and changes nothing else; the outcome is a fault that carries that state
(R203, R9, D38). -/
def raiseIllegal (c : IllegalCase) (s : State) : Outcome := .fault (.illegal c (s.reply .illegal 0 0 0))

/-- `MBCB[m]` (R25). -/
def State.mbcbAt (s : State) (m : Byte) : Option Word := s.mbcb.getD m.toNat none

/-- `MBCB[m] <- v` (R25). -/
def State.setMbcbAt (s : State) (m : Byte) (v : Option Word) : State :=
  { s with mbcb := s.mbcb.set m.toNat v }

/-- `GCB <- {1, h}` (R26). -/
def State.setGcb (s : State) (h : Word) : State := { s with gcb := some h }

/-- `SLOT[i] <- v` (R27). -/
def State.setSlot (s : State) (i : Fin 4) (v : Option Byte) : State :=
  { s with slots := s.slots.set i.val v i.isLt }

/-- The free slot with the smallest index (R131, R134). -/
def State.firstFree (s : State) : Option (Fin 4) :=
  slotIndices.find? fun i => s.slots[i].isNone

/-- The valid slot with the smallest index that holds l (R132, R133). -/
def State.firstHolding (s : State) (l : Byte) : Option (Fin 4) :=
  slotIndices.find? fun i => s.slots[i] == some l

/-- `LMASK[l]` (R28). -/
def State.maskAt (s : State) (l : Byte) : Word := s.lmask.getD l.toNat 0

/-- `LMASK[l] <- v` (R28). -/
def State.setMask (s : State) (l : Byte) (v : Word) : State :=
  { s with lmask := s.lmask.set l.toNat v }

/-- `LMASK[l][i]` (R28). -/
def State.maskBit (s : State) (l : Byte) (i : Nat) : Bool := (s.maskAt l).getLsbD i

/-- `LMASK[l][i] <- b` (R28): bit i takes the value b, the other bits stay. -/
def State.setMaskBit (s : State) (l : Byte) (i : Nat) (b : Bool) : State :=
  s.setMask l (if b then s.maskAt l ||| BitVec.twoPow 32 i else s.maskAt l &&& ~~~BitVec.twoPow 32 i)

/-- `DROPS <- (DROPS + 1) mod 2^32` (R29, R171). -/
def State.countDrop (s : State) : State := { s with drops := s.drops + 1 }

/-- The driver's reply word DRVSTAT to the next FPROG event: the word standing at the port, or else a free value (R186, log
entry 5). -/
def State.drvStat (s : State) : Word :=
  match s.drvIn with
  | d :: _ => d
  | [] => Config.drvStat s.drvDraws

/-- The state after that reply has been taken. -/
def State.takeDrvStat (s : State) : State :=
  match s.drvIn with
  | _ :: rest => { s with drvIn := rest }
  | [] => { s with drvDraws := s.drvDraws + 1 }

/-- The reset input: the registry's state becomes that of R35; the parameters and the ports are not state of the block and
stay (R230 to R232). -/
def State.applyReset (s : State) : State :=
  { s with
    mbcb := (State.resetOf s.params).mbcb
    gcb := (State.resetOf s.params).gcb
    slots := (State.resetOf s.params).slots
    lmask := (State.resetOf s.params).lmask
    drops := (State.resetOf s.params).drops }

end Sys2Proof.Machine
end

