-- ==== Sys2Proof/Machine/Callbacks.lean ====
section
/-!
DEFINITION. The callback commands: 42_callbacks.md. Tokens are opaque and every token is legal (R140).
-/

namespace Sys2Proof.Machine

/-- SET.MBCB (R141). -/
def execSetMbcb (m : Byte) (h : Word) (s : State) : Outcome :=
  if s.isMailbox m then .next (s.setMbcbAt m (some h)).replyOk else raiseError .invalidMailbox s

/-- CLR.MBCB (R142): an empty entry is cleared without error (D20). -/
def execClrMbcb (m : Byte) (s : State) : Outcome :=
  if s.isMailbox m then .next (s.setMbcbAt m none).replyOk else raiseError .invalidMailbox s

/-- SET.GCB (R143). -/
def execSetGcb (h : Word) (s : State) : Outcome := .next (s.setGcb h).replyOk

end Sys2Proof.Machine
end

