-- ==== Sys2Proof/Machine/FilterSynth.lean ====
section
/-!
DEFINITION. The Filter Synthesizer: 40_filter_synth.md. The width rule (R100), the match predicate (R102), the three
filter functions, and the commands SYN.ID (R103), SYN.IDM (R104) and SYN.RNG (R105). The range filter is computed by the
closed form of R108; the scan of R105 stands beside it, and an obligation states that they are equal.
-/

namespace Sys2Proof.Machine

/-- The all-ones mask of the 11-bit width (00_scope.md R6). -/
def wStd : Word := 0x000007FF

/-- The all-ones mask of the 29-bit width (00_scope.md R6). -/
def wExt : Word := 0x1FFFFFFF

/-- `ext(v)`: `v > 0x7FF`, unsigned (R100). -/
def extOf (v : Word) : Bool := decide (wStd < v)

/-- `width(v)` (R100). -/
def widthOf (v : Word) : Word := if extOf v then wExt else wStd

/-- The match predicate (R102, C1): all 32 bits take part, and the extended flags must agree. The block never evaluates
it; it is defined for statements about filters. -/
def filterMatches (f : Filter) (id : Word) (extended : Bool) : Bool :=
  (id &&& f.mask == f.id &&& f.mask) && (extended == f.extended)

/-- `filterForSingleId` (R103). -/
def filterForId (id : Word) : Filter := ⟨id, widthOf id, extOf id⟩

/-- `filterForIdMask` (R104): the mask passes through unchanged. -/
def filterForIdMask (id mask : Word) : Filter := ⟨id, mask, extOf id⟩

/-- Unsigned `min` (R12). -/
def minWord (a b : Word) : Word := if a ≤ b then a else b

/-- Unsigned `max` (R12). -/
def maxWord (a b : Word) : Word := if a ≤ b then b else a

/-- `msb(v)`, the index of the highest set bit of a nonzero word (00_scope.md R12). -/
def topBit (v : Word) : Nat := Nat.log2 v.toNat

/-- `lowmask(n)`, the word with bits n-1..0 set (00_scope.md R12). -/
def lowmask (n : Nat) : Word := BitVec.ofNat 32 (2 ^ n - 1)

/-- `filterForRange` by the closed form (R108). -/
def filterForRange (a b : Word) : Filter :=
  let lo := minWord a b
  let hi := maxWord a b
  let cut := if lo = hi then 0 else lowmask (topBit (lo ^^^ hi) + 1)
  ⟨lo &&& ~~~cut, widthOf hi &&& ~~~cut, extOf hi⟩

/-- One visit of the scan: `id &= c`, `mask &= ~(lo ^ c)` (R105). -/
def scanVisit (lo : Word) (acc : Word × Word) (c : Word) : Word × Word :=
  (acc.1 &&& c, acc.2 &&& ~~~(lo ^^^ c))

/-- The identifiers the scan visits: every integer from lo to hi, in ascending order, with no wrap-around (R107). -/
def scanRange (lo hi : Word) : List Word :=
  (List.range (hi.toNat + 1 - lo.toNat)).map fun k => BitVec.ofNat 32 (lo.toNat + k)

/-- `filterForRange` by the scan of R105, the spec's normative definition. -/
def filterForRangeScan (a b : Word) : Filter :=
  let lo := minWord a b
  let hi := maxWord a b
  let acc := (scanRange lo hi).foldl (scanVisit lo) (lo, widthOf hi)
  ⟨acc.1, acc.2, extOf hi⟩

/-- SYN.ID (R103). -/
def execSynId (id : Word) (s : State) : Outcome := .next (s.replyFilter (filterForId id))

/-- SYN.IDM (R104). -/
def execSynIdm (id mask : Word) (s : State) : Outcome := .next (s.replyFilter (filterForIdMask id mask))

/-- SYN.RNG (R105 to R108). -/
def execSynRng (a b : Word) (s : State) : Outcome := .next (s.replyFilter (filterForRange a b))

end Sys2Proof.Machine
end

