-- ==== Sys2Proof/Machine/Masks.lean ====
section
/-!
DEFINITION. The listener mask commands: 43_listener_masks.md. They do not look at the slots (R150). The handle is checked
before the mailbox index (60_exceptions.md R207).
-/

namespace Sys2Proof.Machine

/-- Give bit m of `LMASK[l]` the value b, for a mailbox index m (R151, R152). -/
def writeMailboxBit (b : Bool) (l m : Byte) (s : State) : Outcome :=
  if s.isListener l then
    if s.isMailbox m then .next (s.setMaskBit l m.toNat b).replyOk else raiseError .invalidMailbox s
  else raiseIllegal .unknownListener s

/-- Give the general bit, bit NF of `LMASK[l]`, the value b (R153, R154). -/
def writeGeneralBit (b : Bool) (l : Byte) (s : State) : Outcome :=
  if s.isListener l then .next (s.setMaskBit l s.params.nf b).replyOk
  else raiseIllegal .unknownListener s

/-- EN.MB (R151): sets, never inverts (D15). -/
def execEnMb (l m : Byte) (s : State) : Outcome := writeMailboxBit true l m s

/-- DIS.MB (R152). -/
def execDisMb (l m : Byte) (s : State) : Outcome := writeMailboxBit false l m s

/-- EN.GEN (R153). -/
def execEnGen (l : Byte) (s : State) : Outcome := writeGeneralBit true l s

/-- DIS.GEN (R154). -/
def execDisGen (l : Byte) (s : State) : Outcome := writeGeneralBit false l s

/-- IS.EN (R155): reads one bit, the general bit among them; a bit above NF does not exist and is Illegal (D17). -/
def execIsEn (l i : Byte) (s : State) : Outcome :=
  if s.isListener l then
    if s.isMaskBit i then .next (s.reply .ok (boolWord (s.maskBit l i.toNat)) 0 0)
    else raiseIllegal .outOfDomain s
  else raiseIllegal .unknownListener s

end Sys2Proof.Machine
end

