-- ==== Sys2Proof/Machine/Registry.lean ====
section
/-!
DEFINITION. The listener registry: 41_listener_registry.md. A handle may sit in several slots (R133, D14).
-/

namespace Sys2Proof.Machine

/-- ATTACH (R131): the lowest free slot takes the handle and the handle's whole mask is cleared; on an error the mask
stays. -/
def execAttach (l : Byte) (s : State) : Outcome :=
  if s.isListener l then
    match s.firstFree with
    | none => raiseError .registryFull s
    | some i => .next ((s.setSlot i (some l)).setMask l 0).replyOk
  else raiseIllegal .unknownListener s

/-- DETACH (R132): the lowest slot that holds the handle becomes free; the mask stays. -/
def execDetach (l : Byte) (s : State) : Outcome :=
  if s.isListener l then
    match s.firstHolding l with
    | none => raiseError .notFound s
    | some i => .next (s.setSlot i none).replyOk
  else raiseIllegal .unknownListener s

end Sys2Proof.Machine
end

