-- ==== Sys2Proof/Machine/Routing.lean ====
section
/-!
DEFINITION. The frame-dispatch multiplexer: 44_dispatch.md. DISPATCH decides all its deliveries on the state at its start
(R175) and reads no bit of the frame (R173).
-/

namespace Sys2Proof.Machine

/-- Step (1) of R166: the mailbox callback. -/
def mailboxCallbackEvents (s : State) (m : Byte) (f : Frame) : List Event :=
  match s.mbcbAt m with
  | some h => [.deliv .cbMb m h f]
  | none => []

/-- Step (2) of R166: every valid slot whose listener has this mailbox's bit set, in ascending slot order. -/
def mailboxListenerEvents (s : State) (m : Byte) (f : Frame) : List Event :=
  slotIndices.filterMap fun i =>
    match s.slots[i] with
    | some l => if s.maskBit l m.toNat then some (.deliv .lsMb m (l.setWidth 32) f) else none
    | none => none

/-- Step (3) of R166: the general callback, only where the mailbox has no callback; the listeners do not count (R168). -/
def generalCallbackEvents (s : State) (m : Byte) (f : Frame) : List Event :=
  match s.mbcbAt m, s.gcb with
  | none, some h => [.deliv .cbGen m h f]
  | none, none => []
  | some _, _ => []

/-- Step (4) of R166: every valid slot whose listener has the general bit set and this mailbox's bit clear (R169). -/
def generalListenerEvents (s : State) (m : Byte) (f : Frame) : List Event :=
  slotIndices.filterMap fun i =>
    match s.slots[i] with
    | some l =>
      if !s.maskBit l m.toNat && s.maskBit l s.params.nf then some (.deliv .lsGen m (l.setWidth 32) f) else none
    | none => none

/-- The deliveries of one DISPATCH in the order they are emitted (R166, R172). -/
def deliveries (s : State) (m : Byte) (f : Frame) : List Event :=
  mailboxCallbackEvents s m f ++ mailboxListenerEvents s m f ++ generalCallbackEvents s m f ++
    generalListenerEvents s m f

/-- DISPATCH (R166): emit the deliveries, count a drop if there is none (R171), and answer their number. -/
def execDispatch (m : Byte) (f : Frame) (s : State) : Outcome :=
  if s.isMailbox m then
    let es := deliveries s m f
    let t := if es.isEmpty then s.countDrop else s.emit es
    .next (t.reply .ok (BitVec.ofNat 32 es.length) 0 0)
  else raiseIllegal .outOfDomain s

/-- RD.DROP (R176): the read does not clear the counter. -/
def execRdDrop (s : State) : Outcome := .next (s.reply .ok s.drops 0 0)

end Sys2Proof.Machine
end

