-- ==== Sys2Proof/Machine/Watch.lean ====
section
/-!
DEFINITION. The four watch entry points: 45_watch.md. Each emits one FPROG event with its filter, takes the driver's reply
word and returns it with status OK (R185, R186).
-/

namespace Sys2Proof.Machine

/-- Emit `FPROG(f)`, take DRVSTAT, `reply(OK, DRVSTAT)` (R185, R186). -/
def State.watch (s : State) (f : Filter) : State :=
  ((s.emit [.fprog f]).takeDrvStat).reply .ok s.drvStat 0 0

/-- WATCH.ALL: the filter is the parameter WATCH_ALL_FILTER (R187, D24). -/
def execWatchAll (s : State) : Outcome := .next (s.watch s.params.watchAll)

/-- WATCH.ID (R188). -/
def execWatchId (id : Word) (s : State) : Outcome := .next (s.watch (filterForId id))

/-- WATCH.IDM (R189). -/
def execWatchIdm (id mask : Word) (s : State) : Outcome := .next (s.watch (filterForIdMask id mask))

/-- WATCH.RNG (R190). -/
def execWatchRng (a b : Word) (s : State) : Outcome := .next (s.watch (filterForRange a b))

end Sys2Proof.Machine
end

