-- ==== Sys2Proof/Machine/Dispatch.lean ====
section
/-!
DEFINITION. One arm per command: the meaning that runs it. The packet has already been taken off the command port.
-/

namespace Sys2Proof.Machine

def exec (i : Instr) (s : State) : Host.Outcome State Fault Refusal :=
  match i with
  -- the filter synthesizer (40_filter_synth.md)
  | .synId id => Sys2Proof.Machine.execSynId id s
  | .synIdm id mask => Sys2Proof.Machine.execSynIdm id mask s
  | .synRng a b => Sys2Proof.Machine.execSynRng a b s
  -- the watch entry points (45_watch.md)
  | .watchAll => Sys2Proof.Machine.execWatchAll s
  | .watchId id => Sys2Proof.Machine.execWatchId id s
  | .watchIdm id mask => Sys2Proof.Machine.execWatchIdm id mask s
  | .watchRng a b => Sys2Proof.Machine.execWatchRng a b s
  -- the callbacks (42_callbacks.md)
  | .setMbcb idx h => Sys2Proof.Machine.execSetMbcb idx h s
  | .clrMbcb idx => Sys2Proof.Machine.execClrMbcb idx s
  | .setGcb h => Sys2Proof.Machine.execSetGcb h s
  -- the listener registry (41_listener_registry.md)
  | .attach lid => Sys2Proof.Machine.execAttach lid s
  | .detach lid => Sys2Proof.Machine.execDetach lid s
  -- the listener masks (43_listener_masks.md)
  | .enMb lid idx => Sys2Proof.Machine.execEnMb lid idx s
  | .disMb lid idx => Sys2Proof.Machine.execDisMb lid idx s
  | .enGen lid => Sys2Proof.Machine.execEnGen lid s
  | .disGen lid => Sys2Proof.Machine.execDisGen lid s
  | .isEn lid idx => Sys2Proof.Machine.execIsEn lid idx s
  -- dispatch (44_dispatch.md)
  | .dispatch idx frame => Sys2Proof.Machine.execDispatch idx frame s
  | .rdDrop => Sys2Proof.Machine.execRdDrop s

end Sys2Proof.Machine
end

