-- ==== Sys2Proof/Machine/Fetch.lean ====
section
/-!
DEFINITION. Taking the next packet, or the reset input, off the incoming stream: 30_encoding.md R70 and R73,
70_reset_and_hazards.md R231 and R232, 60_exceptions.md R221.
-/

namespace Sys2Proof.Machine

/-- The words that stand at the command port before the next reset. -/
def leadingWords : List Input → List Word
  | [] => []
  | .word w :: rest => w :: leadingWords rest
  | .reset :: _ => []

/-- What the block does next. -/
inductive Fetched where
  /-- No whole packet has arrived: the block is idle (R221, R232). -/
  | idle
  /-- The reset input is asserted between commands (R231). -/
  | reset (rest : List Input)
  /-- A command; `rest` is what stands behind its packet. -/
  | command (i : Instr) (rest : List Input)
  /-- A packet that is Illegal by its header; it has the length of R73 and its operand words are discarded. -/
  | illegal (c : IllegalCase) (rest : List Input)
  /-- Reset is asserted while a packet is arriving (R231, V6). -/
  | resetDuringCommand
  deriving DecidableEq, Repr

/-- Look at the incoming stream. -/
def fetch (inp : List Input) : Fetched :=
  match inp with
  | [] => .idle
  | .reset :: rest => .reset rest
  | .word _ :: _ =>
    match decode (leadingWords inp) with
    | .instr i n => .command i (inp.drop n)
    | .illegal c n => .illegal c (inp.drop n)
    | .incomplete => if inp.contains .reset then .resetDuringCommand else .idle

/-- A packet as it stands on the command port. -/
def asInputs (ws : List Word) : List Input := ws.map .word

end Sys2Proof.Machine
end

