-- ==== Sys2Proof/Machine/Step.lean ====
section
/-!
DEFINITION. One step: take one packet off the command port and run it to completion (00_scope.md R8), or take the reset
input (70_reset_and_hazards.md R231), or stay idle (60_exceptions.md R221).
-/

namespace Sys2Proof.Machine

/-- One step of the machine. -/
def step (s : State) : Host.Outcome State Fault Refusal :=
  match fetch s.inputs with
  | .idle => .next s
  | .reset rest => .next { s.applyReset with inputs := rest }
  | .command i rest => exec i { s with inputs := rest }
  | .illegal c rest => raiseIllegal c { s with inputs := rest }
  | .resetDuringCommand => .refused .resetDuringCommand

/-- `s` with the packet whose bits are `w` standing first on the command port (log entry 9: a program comes from outside,
packet by packet). -/
def State.withFetchWord (s : State) (nbits w : Nat) : State :=
  { s with inputs := asInputs (tablePacket nbits w) ++ s.inputs }

end Sys2Proof.Machine
end

