-- ==== Sys2Proof/WellFormed.lean ====
section
/-!
DEFINITION. Which commands lie in the domain of a block with given parameters: 30_encoding.md R77 cases 4 and 5. The
widths of the operands need no check (the types of Instr carry them, R71), and the header checks of R77 cases 1 to 3
cannot fail for a command of Instr.
-/

namespace Sys2Proof

/-- A command whose listener handle names a listener (R77 case 4) and whose index is in the domain of IS.EN or DISPATCH
(R77 case 5). A mailbox index out of range in SET.MBCB, CLR.MBCB, EN.MB or DIS.MB is well formed: it has a result,
InvalidMailbox (60_exceptions.md R201). -/
def WellFormed (p : Params) : Instr → Bool
  | .synId _ => true
  | .synIdm _ _ => true
  | .synRng _ _ => true
  | .watchAll => true
  | .watchId _ => true
  | .watchIdm _ _ => true
  | .watchRng _ _ => true
  | .setMbcb _ _ => true
  | .clrMbcb _ => true
  | .setGcb _ => true
  | .attach l => decide (l.toNat < p.nl)
  | .detach l => decide (l.toNat < p.nl)
  | .enMb l _ => decide (l.toNat < p.nl)
  | .disMb l _ => decide (l.toNat < p.nl)
  | .enGen l => decide (l.toNat < p.nl)
  | .disGen l => decide (l.toNat < p.nl)
  | .isEn l i => decide (l.toNat < p.nl) && decide (i.toNat ≤ p.nf)
  | .dispatch m _ => decide (m.toNat < p.nf)
  | .rdDrop => true

end Sys2Proof
end

