-- ==== Sys2Proof/Safety.lean ====
section
/-!
DEFINITION. The terms statements are made in: what a well-shaped state is (10_state.md R32), what a run is, and what the
hardware goes on from after an Illegal answer (60_exceptions.md R203).
-/

namespace Sys2Proof.Machine

/-- The shape every reachable state has: the parameters are admitted (00_scope.md R6), the tables have NF and NL entries
(R24), no mask has a bit above NF and every valid slot holds a handle below NL (R32). -/
abbrev State.Inv (s : State) : Prop :=
  s.params.Admitted ∧ s.mbcb.length = s.params.nf ∧ s.lmask.length = s.params.nl ∧
    (s.lmask.all fun w => decide (w.toNat < 2 ^ (s.params.nf + 1))) = true ∧
    (s.slots.toList.all fun o => o.all fun l => decide (l.toNat < s.params.nl)) = true

/-- The next state of an outcome, if it is one. A run that a claim may accept goes through next states only (R9, R203). -/
def nextOf : Outcome → Option State
  | .next s => some s
  | .fault _ => none
  | .refused _ => none

/-- The state the hardware is in after an outcome: the next state, or the state in which it has answered Illegal, from
which it "stays usable" (R203). -/
def answered : Outcome → Option State
  | .next s => some s
  | .fault (.illegal _ s) => some s
  | .refused _ => none

/-- Change the state inside an outcome. -/
def mapState (g : State → State) : Outcome → Outcome
  | .next s => .next (g s)
  | .fault (.illegal c s) => .fault (.illegal c (g s))
  | .refused r => .refused r

/-- The response an outcome sent last, if any. -/
def lastResponse (o : Outcome) : Option Response :=
  (answered o).bind fun s => s.responses.getLast?

/-- Commands run one after another, through next states only (20_memory.md R60). -/
def execAll : List Instr → State → Option State
  | [], s => some s
  | i :: is, s => (nextOf (exec i s)).bind (execAll is)

/-- The number of valid slots that hold the handle (41_listener_registry.md R133). -/
def State.slotsHolding (s : State) (l : Byte) : Nat := s.slots.toList.count (some l)

/-- What a WATCH command that forwards `f` does (45_watch.md R185, R186): one FPROG event, and status OK with the driver's
reply word `d`, which is the word at the port if one stands there and any word at all if none does. Nothing of the block
changes; what becomes of the port is the model's own (log entry 5). -/
def WatchEffect (s : State) (f : Filter) (t : State) : Prop :=
  ∃ d : Word, (∀ w rest, s.drvIn = w :: rest → d = w) ∧
    t = { s with
      drvIn := t.drvIn
      drvDraws := t.drvDraws
      responses := s.responses ++ [⟨.ok, d, 0, 0⟩]
      events := s.events ++ [.fprog f] }

/-- `k` steps of the hardware, going on after an Illegal answer (R203, R211). For the model's own tests. -/
def hardwareRun : Nat → State → Option State
  | 0, s => some s
  | k + 1, s => (answered (step s)).bind (hardwareRun k)

/-- The states of the runs of a block with parameters `p`: from reset, with any input stream and any driver replies
(R8, R230), by next states (R9). -/
inductive Reachable (p : Params) : State → Prop where
  | start (inp : List Input) (drv : List Word) :
      Reachable p { State.resetOf p with inputs := inp, drvIn := drv }
  | step {s t : State} (hs : Reachable p s) (ht : step s = .next t) : Reachable p t

/-- The premise of R133: no handle sits in two slots. -/
abbrev State.NoHandleTwice (s : State) : Prop :=
  ∀ i j : Fin 4, i ≠ j → s.slots[i] ≠ none → s.slots[i] ≠ s.slots[j]

end Sys2Proof.Machine
end

