-- ==== Sys2Proof/Certificates/Slice0/Obligations.lean ====
section
/-!
DEFINITION. The statements for the provers. Each docstring names the rules of spec/ it formalises. Statements quantify over
every state, and so over every NF, NL and WATCH_ALL_FILTER a state can hold; those that need the shape of a reachable state
take `State.Inv` as a premise, and that premise is a statement of its own (ResetShape, StepKeepsShape).
-/

open Sys2Proof Sys2Proof.Machine

/-! ### Packets -/

/-- 30_encoding.md R84: the worked encodings, in both directions, and the two Illegal headers. -/
def Obligations.WorkedEncodings : Prop :=
  (encode (.synId 0x123) = [0x00000001, 0x00000123] ∧
    encode (.synRng 0x100 0x10F) = [0x00000003, 0x00000100, 0x0000010F] ∧
    encode (.setMbcb 2 0xCAFE0002) = [0x00000210, 0xCAFE0002] ∧
    encode (.attach 3) = [0x00030020] ∧ encode (.enMb 3 2) = [0x00030228] ∧
    encode (.enGen 3) = [0x0003002A] ∧ encode (.isEn 3 8) = [0x0003082C] ∧
    (∀ f : Frame, encode (.dispatch 2 f) = [0x00000230, f.fw0, f.fw1, f.fw2, f.fw3, f.fw4, f.fw5]) ∧
    encode .rdDrop = [0x00000038]) ∧
  (decode [0x00000001, 0x00000123] = .instr (.synId 0x123) 2 ∧
    decode [0x00000003, 0x00000100, 0x0000010F] = .instr (.synRng 0x100 0x10F) 3 ∧
    decode [0x00000210, 0xCAFE0002] = .instr (.setMbcb 2 0xCAFE0002) 2 ∧
    decode [0x00030020] = .instr (.attach 3) 1 ∧ decode [0x00030228] = .instr (.enMb 3 2) 1 ∧
    decode [0x0003002A] = .instr (.enGen 3) 1 ∧ decode [0x0003082C] = .instr (.isEn 3 8) 1 ∧
    (∀ a b c d e f : Word,
      decode [0x00000230, a, b, c, d, e, f] = .instr (.dispatch 2 ⟨a, b, c, d, e, f⟩) 7) ∧
    decode [0x00000038] = .instr .rdDrop 1) ∧
  ∀ w : Word, decode [0x01000001, w] = .illegal .reservedField 2 ∧ decode [0x00000101, w] = .illegal .unusedField 2

/-- 30_encoding.md R71 to R74 and R76: whatever follows a command's packet, decoding reads that command and exactly its
words. No bit of any operand is dropped. -/
def Obligations.DecodeOfEncode : Prop :=
  ∀ (i : Instr) (rest : List Word), decode (encode i ++ rest) = .instr i (encode i).length

/-- 30_encoding.md R71 to R77: a packet that decodes to a command is that command's own packet. -/
def Obligations.EncodeOfDecode : Prop :=
  ∀ (ws : List Word) (i : Instr) (n : Nat), decode ws = .instr i n → ws.take n = encode i ∧ n = (encode i).length

/-- 30_encoding.md R76: a header selects the row for which `(CW & mask) == match`, and no two rows match one header. -/
def Obligations.HeaderSelectsRow : Prop :=
  (∀ (h : Word) (ws : List Word) (o : Op), o.format.words ≤ ws.length + 1 →
    ((∃ i, decode (h :: ws) = .instr i o.format.words ∧ i.op = o) ↔ h &&& o.mask = o.pattern)) ∧
  ∀ (h : Word) (o o' : Op), h &&& o.mask = o.pattern → h &&& o'.mask = o'.pattern → o = o'

/-- 30_encoding.md R77: a whole packet at the command port is Illegal in exactly the five cases, the first that applies
decides, the answer is status 0xFF with no other change and no event, and cases 1 to 3 together say that no row matches. -/
def Obligations.IllegalCases : Prop :=
  ∀ (s : State) (h : Word) (ws : List Word) (rest : List Input),
    s.inputs = asInputs (h :: ws) ++ rest → ws.length + 1 = packetWords h →
    let case1 := hdrOp h ∉ ([0x01, 0x02, 0x03, 0x08, 0x09, 0x0A, 0x0B, 0x10, 0x11, 0x12, 0x20, 0x21, 0x28, 0x29, 0x2A,
      0x2B, 0x2C, 0x30, 0x38] : List Byte)
    let case2 := hdrRsv h ≠ 0
    let case3 := ∃ o : Op, o.code = hdrOp h ∧
      ((o.usesIdx = false ∧ hdrIdx h ≠ 0) ∨ (o.usesLid = false ∧ hdrLid h ≠ 0))
    let case4 := ∃ o : Op, o.code = hdrOp h ∧ o.usesLid = true ∧ s.params.nl ≤ (hdrLid h).toNat
    let case5 := (hdrOp h = 0x2C ∧ s.params.nf < (hdrIdx h).toNat) ∨ (hdrOp h = 0x30 ∧ s.params.nf ≤ (hdrIdx h).toNat)
    let illegal : IllegalCase → Prop := fun c =>
      step s = .fault (.illegal c { s with inputs := rest, responses := s.responses ++ [⟨.illegal, 0, 0, 0⟩] })
    (case1 → illegal .unknownOpcode) ∧
    (¬case1 → case2 → illegal .reservedField) ∧
    (¬case1 → ¬case2 → case3 → illegal .unusedField) ∧
    (¬case1 → ¬case2 → ¬case3 → case4 → illegal .unknownListener) ∧
    (¬case1 → ¬case2 → ¬case3 → ¬case4 → case5 → illegal .outOfDomain) ∧
    (¬case1 → ¬case2 → ¬case3 → ¬case4 → ¬case5 → ∃ t, step s = .next t) ∧
    ((case1 ∨ case2 ∨ case3) ↔ ∀ o : Op, h &&& o.mask ≠ o.pattern)

/-- 30_encoding.md R73: the header's OP alone decides how many words a packet takes, one where OP is unassigned; the block
answers, takes exactly those words, and what stands behind them comes next, whether the packet is a command or Illegal. -/
def Obligations.PacketLength : Prop :=
  ∀ (s : State) (h : Word) (ws : List Word) (rest : List Input),
    s.inputs = asInputs (h :: ws) ++ rest →
    (∀ o : Op, o.code = hdrOp h → ws.length + 1 = o.format.words) →
    ((∀ o : Op, o.code ≠ hdrOp h) → ws = []) →
    ∃ t, answered (step s) = some t ∧ t.inputs = rest ∧ t.responses.length = s.responses.length + 1 ∧
      ((∀ o : Op, o.code ≠ hdrOp h) → t = { s with inputs := rest, responses := s.responses ++ [⟨.illegal, 0, 0, 0⟩] })

/-! ### The step -/

/-- 00_scope.md R8: when the words at the command port decode to a command, the step is that command's meaning, run on the
state whose command port has moved past the packet. -/
def Obligations.StepRunsCommand : Prop :=
  ∀ (s : State) (ws : List Word) (rest : List Input) (i : Instr) (n : Nat),
    s.inputs = asInputs ws ++ rest → decode ws = .instr i n →
    step s = exec i { s with inputs := (asInputs ws ++ rest).drop n }

/-- 60_exceptions.md R221, 70_reset_and_hazards.md R232: with no whole packet at the command port the block is idle and holds
its state. That a packet still arriving counts as idle is the model's reading (log entry 7). -/
def Obligations.IdleStep : Prop :=
  ∀ (s : State) (ws : List Word), s.inputs = asInputs ws → decode ws = .incomplete → step s = .next s

/-- 70_reset_and_hazards.md R230, R231, R232: the reset input, taken between commands, puts the registry into the reset
state and leaves NF, NL and WATCH_ALL_FILTER. That the driver's replies (log entry 5), what has been sent (log entry 8) and the
rest of the input (log entry 10) stay is the model's own choice, on which the spec is silent. -/
def Obligations.ResetInput : Prop :=
  ∀ (s : State) (rest : List Input), s.inputs = .reset :: rest →
    ∃ t, step s = .next t ∧ t.mbcb = List.replicate s.params.nf none ∧ t.gcb = none ∧ (∀ i : Fin 4, t.slots[i] = none) ∧
      t.lmask = List.replicate s.params.nl 0 ∧ t.drops = 0 ∧ t.gcbPresent = false ∧ t.inputs = rest ∧
      t = { s with mbcb := t.mbcb, gcb := t.gcb, slots := t.slots, lmask := t.lmask, drops := t.drops, inputs := t.inputs }

/-- 10_state.md R35: the reset state, for every block. -/
def Obligations.ResetValues : Prop :=
  ∀ p : Params, let s := State.resetOf p
    s.params = p ∧ s.mbcb.length = p.nf ∧ (∀ m, s.mbcbAt m = none) ∧ s.gcb = none ∧ s.gcbPresent = false ∧
      (∀ i : Fin 4, s.slots[i] = none) ∧ s.lmask.length = p.nl ∧ (∀ l j, s.maskBit l j = false) ∧ s.drops = 0

/-- The reset state of every admitted block has the shape of `State.Inv` (10_state.md R24, R32, R35). -/
def Obligations.ResetShape : Prop :=
  State.reset.Inv ∧ ∀ p : Params, p.Admitted → (State.resetOf p).Inv

/-- 10_state.md R24, R32 (a), (b): every step keeps the shape of the state, the hardware's Illegal answer included. -/
def Obligations.StepKeepsShape : Prop :=
  ∀ s t : State, s.Inv → answered (step s) = some t → t.Inv

/-- 10_state.md R32: in every reachable state (a) a valid slot holds a handle below NL, (b) no mask has a bit above NF,
(d) at most 4 slots are valid, and (c) no step but the reset input takes `GCB.v` from 1 to 0. -/
def Obligations.ReachableInvariants : Prop :=
  ∀ (p : Params) (s : State), p.Admitted → Reachable p s →
    (∀ (i : Fin 4) (l : Byte), s.slots[i] = some l → l.toNat < p.nl) ∧
    (s.lmask.length = p.nl ∧ ∀ (l : Byte) (j : Nat), p.nf < j → s.maskBit l j = false) ∧
    (∀ t, step s = .next t → s.gcb ≠ none → t.gcb = none → ∃ rest, s.inputs = .reset :: rest) ∧
    s.validSlots ≤ 4

/-- 00_scope.md R7: no step changes NF, NL or WATCH_ALL_FILTER. -/
def Obligations.ParamsFixed : Prop :=
  ∀ s t : State, answered (step s) = some t → t.params = s.params

/-- 20_memory.md R56 (the "writes" column): the frame of every command. MBCB changes only in SET.MBCB and CLR.MBCB, GCB only
in SET.GCB, SLOT only in ATTACH and DETACH, LMASK only in ATTACH and the four EN/DIS commands, DROPS only in DISPATCH; events
leave only in WATCH commands and DISPATCH. That each WATCH command, and no other command, takes one reply off the port or
draws one free value is the model's own bookkeeping (log entry 5). -/
def Obligations.CommandWrites : Prop :=
  ∀ (i : Instr) (s t : State), answered (exec i s) = some t →
    t.params = s.params ∧ t.inputs = s.inputs ∧
    (t.mbcb ≠ s.mbcb → i.op = .setMbcb ∨ i.op = .clrMbcb) ∧
    (t.gcb ≠ s.gcb → i.op = .setGcb) ∧
    (t.slots ≠ s.slots → i.op = .attach ∨ i.op = .detach) ∧
    (t.lmask ≠ s.lmask → i.op = .attach ∨ i.op = .enMb ∨ i.op = .disMb ∨ i.op = .enGen ∨ i.op = .disGen) ∧
    (t.drops ≠ s.drops → i.op = .dispatch) ∧
    (t.events ≠ s.events →
      i.op = .watchAll ∨ i.op = .watchId ∨ i.op = .watchIdm ∨ i.op = .watchRng ∨ i.op = .dispatch) ∧
    (if i.op = .watchAll ∨ i.op = .watchId ∨ i.op = .watchIdm ∨ i.op = .watchRng then
      t.drvIn = s.drvIn.tail ∧ t.drvDraws = (if s.drvIn = [] then s.drvDraws + 1 else s.drvDraws)
     else t.drvIn = s.drvIn ∧ t.drvDraws = s.drvDraws)

/-- 60_exceptions.md R204: every command sends one response; one whose status is not OK has zero result words, and nothing
else of the state has changed and no event has been emitted. -/
def Obligations.ErrorsArePrecise : Prop :=
  ∀ (i : Instr) (s t : State), answered (exec i s) = some t →
    ∃ r : Response, t.responses = s.responses ++ [r] ∧
      (r.status ≠ .ok → r = ⟨r.status, 0, 0, 0⟩ ∧ t = { s with responses := s.responses ++ [r] })

/-- 20_memory.md R60, 30_encoding.md R70: what has been sent stays sent; a step adds at most one response, at the end, and
events only together with a response. -/
def Obligations.StepAppendsOutputs : Prop :=
  ∀ s t : State, answered (step s) = some t →
    ∃ (rs : List Response) (es : List Event), t.responses = s.responses ++ rs ∧ t.events = s.events ++ es ∧
      rs.length ≤ 1 ∧ (rs = [] → es = [])

/-- 60_exceptions.md R201: which status each command answers. -/
def Obligations.StatusTable : Prop :=
  ∀ s : State,
    let status : Instr → Option Status := fun i => (lastResponse (exec i s)).map (·.status)
    let nf := s.params.nf
    let nl := s.params.nl
    (∀ a b, status (.synId a) = some .ok ∧ status (.synIdm a b) = some .ok ∧ status (.synRng a b) = some .ok) ∧
    (∀ a b, status .watchAll = some .ok ∧ status (.watchId a) = some .ok ∧ status (.watchIdm a b) = some .ok ∧
      status (.watchRng a b) = some .ok) ∧
    (∀ m h, status (.setMbcb m h) = some (if m.toNat < nf then .ok else .invalidMailbox) ∧
      status (.clrMbcb m) = some (if m.toNat < nf then .ok else .invalidMailbox)) ∧
    (∀ h, status (.setGcb h) = some .ok) ∧
    (∀ l, status (.attach l) =
      some (if nl ≤ l.toNat then .illegal else if ∃ i : Fin 4, s.slots[i] = none then .ok else .registryFull)) ∧
    (∀ l, status (.detach l) =
      some (if nl ≤ l.toNat then .illegal else if ∃ i : Fin 4, s.slots[i] = some l then .ok else .notFound)) ∧
    (∀ l m, status (.enMb l m) =
        some (if nl ≤ l.toNat then .illegal else if m.toNat < nf then .ok else .invalidMailbox) ∧
      status (.disMb l m) =
        some (if nl ≤ l.toNat then .illegal else if m.toNat < nf then .ok else .invalidMailbox)) ∧
    (∀ l, status (.enGen l) = some (if nl ≤ l.toNat then .illegal else .ok) ∧
      status (.disGen l) = some (if nl ≤ l.toNat then .illegal else .ok)) ∧
    (∀ l i, status (.isEn l i) = some (if nl ≤ l.toNat ∨ nf < i.toNat then .illegal else .ok)) ∧
    (∀ m f, status (.dispatch m f) = some (if m.toNat < nf then .ok else .illegal)) ∧
    status .rdDrop = some .ok

/-- 00_scope.md R9, 60_exceptions.md R203: a command in its domain has a next state, and a command outside it is a fault
whose state differs from the state before in the one response 0xFF. -/
def Obligations.MeaningExactlyInDomain : Prop :=
  ∀ (i : Instr) (s : State),
    (WellFormed s.params i = true → ∃ t, exec i s = .next t) ∧
    (WellFormed s.params i = false →
      ∃ c, exec i s = .fault (.illegal c { s with responses := s.responses ++ [⟨.illegal, 0, 0, 0⟩] }))

/-! ### The filter synthesizer -/

/-- 40_filter_synth.md R103: SYN.ID. -/
def Obligations.SynIdReply : Prop :=
  ∀ (a : Word) (s : State), encode (.synId a) = [0x00000001, a] ∧
    (a ≤ 0x7FF → exec (.synId a) s = .next { s with responses := s.responses ++ [⟨.ok, a, 0x000007FF, 0⟩] }) ∧
    (0x7FF < a → exec (.synId a) s = .next { s with responses := s.responses ++ [⟨.ok, a, 0x1FFFFFFF, 1⟩] })

/-- 40_filter_synth.md R104: SYN.IDM. -/
def Obligations.SynIdmReply : Prop :=
  ∀ (a b : Word) (s : State), encode (.synIdm a b) = [0x00000002, a, b] ∧
    (a ≤ 0x7FF → exec (.synIdm a b) s = .next { s with responses := s.responses ++ [⟨.ok, a, b, 0⟩] }) ∧
    (0x7FF < a → exec (.synIdm a b) s = .next { s with responses := s.responses ++ [⟨.ok, a, b, 1⟩] })

/-- 40_filter_synth.md R105: SYN.RNG answers what the scan over every integer of the range computes. -/
def Obligations.SynRngScan : Prop :=
  ∀ (a b : Word) (s : State), encode (.synRng a b) = [0x00000003, a, b] ∧
    (let lo := if a ≤ b then a else b
     let hi := if a ≤ b then b else a
     let width : Word := if hi ≤ 0x7FF then 0x7FF else 0x1FFFFFFF
     let visit : Word × Word → Nat → Word × Word := fun acc c =>
       (acc.1 &&& BitVec.ofNat 32 c, acc.2 &&& ~~~(lo ^^^ BitVec.ofNat 32 c))
     let acc := (List.range' lo.toNat (hi.toNat + 1 - lo.toNat)).foldl visit (lo, width)
     exec (.synRng a b) s =
       .next { s with responses := s.responses ++ [⟨.ok, acc.1, acc.2, if 0x7FF < hi then 1 else 0⟩] })

/-- 40_filter_synth.md R108: the scan equals the closed form, in which k is the highest bit where the bounds differ and L has
bits k..0 set; SYN.RNG answers that filter. -/
def Obligations.RangeClosedForm : Prop :=
  ∀ a b : Word,
    let lo := if a ≤ b then a else b
    let hi := if a ≤ b then b else a
    let width : Word := if hi ≤ 0x7FF then 0x7FF else 0x1FFFFFFF
    filterForRange a b = filterForRangeScan a b ∧
    (∀ s : State, exec (.synRng a b) s = .next (s.replyFilter (filterForRangeScan a b))) ∧
    (lo = hi → filterForRangeScan a b = ⟨lo, width, decide (0x7FF < hi)⟩) ∧
    ∀ k : Nat, (lo ^^^ hi).getLsbD k = true → (∀ j, k < j → (lo ^^^ hi).getLsbD j = false) →
      let cut : Word := BitVec.ofNat 32 (2 ^ (k + 1) - 1)
      filterForRangeScan a b = ⟨lo &&& ~~~cut, width &&& ~~~cut, decide (0x7FF < hi)⟩

/-- 40_filter_synth.md R106: the bounds may come in either order, and the width and the extended flag come from the larger. -/
def Obligations.RangeOrder : Prop :=
  ∀ (a b : Word) (s : State), exec (.synRng a b) s = exec (.synRng b a) s ∧
    ((filterForRange a b).extended = true ↔ 0x7FF < a ∨ 0x7FF < b) ∧
    (filterForRange a b).mask &&& ~~~(if 0x7FF < a ∨ 0x7FF < b then (0x1FFFFFFF : Word) else 0x7FF) = 0

/-- 40_filter_synth.md R109: the filter of a range admits every identifier of the range. -/
def Obligations.RangeCovers : Prop :=
  ∀ a b c : Word, (a ≤ c ∧ c ≤ b) ∨ (b ≤ c ∧ c ≤ a) →
    let f := filterForRange a b
    c &&& f.mask = f.id &&& f.mask ∧ ∀ e, e = f.extended → filterMatches f c e = true

/-- 40_filter_synth.md R110: inside the active width the id of SYN.ID and SYN.RNG is 0 wherever the mask is 0; SYN.IDM does
not have this property. -/
def Obligations.CanonicalId : Prop :=
  (∀ a : Word, let f := filterForId a
    f.id &&& (if a ≤ 0x7FF then 0x7FF else 0x1FFFFFFF) &&& ~~~f.mask = 0) ∧
  (∀ a b : Word, let f := filterForRange a b
    f.id &&& (if a ≤ 0x7FF ∧ b ≤ 0x7FF then 0x7FF else 0x1FFFFFFF) &&& ~~~f.mask = 0) ∧
  ∃ a m : Word, let f := filterForIdMask a m
    f.id &&& (if a ≤ 0x7FF then 0x7FF else 0x1FFFFFFF) &&& ~~~f.mask ≠ 0

/-- 40_filter_synth.md R111: a pair that admits every identifier of a range has a mask that is 0 on bits k..0, k the highest
bit where the bounds differ; so within the active width, where the bounds lie in it, it admits whatever the filter of
SYN.RNG admits. -/
def Obligations.RangeMinimal : Prop :=
  ∀ (a b id' mask' : Word),
    (∀ c, (a ≤ c ∧ c ≤ b) ∨ (b ≤ c ∧ c ≤ a) → c &&& mask' = id' &&& mask') →
    (∀ k j, (a ^^^ b).getLsbD k = true → j ≤ k → mask'.getLsbD j = false) ∧
    (let f := filterForRange a b
     let width : Word := if a ≤ 0x7FF ∧ b ≤ 0x7FF then 0x7FF else 0x1FFFFFFF
     a ≤ width → b ≤ width → ∀ c, c ≤ width → c &&& f.mask = f.id &&& f.mask → c &&& mask' = id' &&& mask')

/-- 40_filter_synth.md R112: within the active width, where the bounds lie in it, the filter of a range admits exactly the
aligned block of 2^(k+1) identifiers around the bounds. -/
def Obligations.RangeOverAdmits : Prop :=
  ∀ (a b : Word) (k : Nat), (a ^^^ b).getLsbD k = true → (∀ j, k < j → (a ^^^ b).getLsbD j = false) →
    let f := filterForRange a b
    let width : Word := if a ≤ 0x7FF ∧ b ≤ 0x7FF then 0x7FF else 0x1FFFFFFF
    let base := a.toNat / 2 ^ (k + 1) * 2 ^ (k + 1)
    a ≤ width → b ≤ width → ∀ c, c ≤ width →
      (c &&& f.mask = f.id &&& f.mask ↔ base ≤ c.toNat ∧ c.toNat < base + 2 ^ (k + 1))

/-- 40_filter_synth.md R113: a range of one identifier answers what SYN.ID answers. -/
def Obligations.RangeDegenerate : Prop :=
  ∀ (x : Word) (s : State), exec (.synRng x x) s = exec (.synId x) s

/-- 40_filter_synth.md R114: a range across 0x7FF gives an extended filter of the 29-bit width, which admits no standard
frame. -/
def Obligations.RangeAcrossWidths : Prop :=
  (∀ a b : Word, a ≤ 0x7FF → 0x7FF < b →
    (filterForRange a b).extended = true ∧
    (∀ j, 11 ≤ j → j < 29 → (∀ i, j ≤ i → b.getLsbD i = false) → (filterForRange a b).mask.getLsbD j = true) ∧
    ∀ c, filterMatches (filterForRange a b) c false = false) ∧
  filterForRange 0x7FE 0x801 = ⟨0x00000000, 0x1FFFF000, true⟩

/-- 40_filter_synth.md R116: bounds that differ in the top bit of the active width or above it give mask 0, which admits
every identifier of its framing; the three examples. -/
def Obligations.RangeCollapse : Prop :=
  (∀ (a b : Word) (j : Nat), (a ^^^ b).getLsbD j = true → (if a ≤ 0x7FF ∧ b ≤ 0x7FF then 10 else 28) ≤ j →
    (filterForRange a b).mask = 0 ∧
      ∀ c, filterMatches (filterForRange a b) c (filterForRange a b).extended = true) ∧
  filterForRange 0x3FF 0x400 = ⟨0, 0, false⟩ ∧ filterForRange 0x400 0x7FF = ⟨0x400, 0x400, false⟩ ∧
  filterForRange 0x100 0x1FF = ⟨0x100, 0x700, false⟩

/-- 40_filter_synth.md R105 (its source sentence) and R115: a bit of the id is 1 exactly where it is 1 in every identifier of
the range, above the width too; a bit of the mask is 1 exactly where it lies in the width and never differs from the lower
bound. -/
def Obligations.RangeBits : Prop :=
  ∀ (a b : Word) (j : Nat), a ≤ b → j < 32 →
    ((filterForRange a b).id.getLsbD j = true ↔ ∀ c, a ≤ c → c ≤ b → c.getLsbD j = true) ∧
    ((filterForRange a b).mask.getLsbD j = true ↔
      j < (if b ≤ 0x7FF then 11 else 29) ∧ ∀ c, a ≤ c → c ≤ b → c.getLsbD j = a.getLsbD j)

/-! ### The watch entry points -/

/-- 45_watch.md R187 (with R185, R186): WATCH.ALL forwards the parameter WATCH_ALL_FILTER, whatever it is. -/
def Obligations.WatchAllForwards : Prop :=
  ∀ s : State, encode .watchAll = [0x00000008] ∧ ∃ t, exec .watchAll s = .next t ∧ WatchEffect s s.params.watchAll t

/-- 45_watch.md R188, R189, R190 (with R185, R186): each WATCH command forwards its filter and returns the driver's word. -/
def Obligations.WatchFilterForwards : Prop :=
  ∀ (a b : Word) (s : State),
    (encode (.watchId a) = [0x00000009, a] ∧
      ∃ t, exec (.watchId a) s = .next t ∧
        WatchEffect s (if a ≤ 0x7FF then ⟨a, 0x7FF, false⟩ else ⟨a, 0x1FFFFFFF, true⟩) t) ∧
    (encode (.watchIdm a b) = [0x0000000A, a, b] ∧
      ∃ t, exec (.watchIdm a b) s = .next t ∧ WatchEffect s ⟨a, b, decide (0x7FF < a)⟩ t) ∧
    (encode (.watchRng a b) = [0x0000000B, a, b] ∧
      ∃ t, exec (.watchRng a b) s = .next t ∧ WatchEffect s (filterForRangeScan a b) t)

/-- 45_watch.md R191: the FPROG words of a WATCH command are the result words of the SYN command with the same operands. -/
def Obligations.WatchForwardsSyn : Prop :=
  ∀ (a b : Word) (s : State) (i j : Instr),
    (i = .synId a ∧ j = .watchId a) ∨ (i = .synIdm a b ∧ j = .watchIdm a b) ∨ (i = .synRng a b ∧ j = .watchRng a b) →
    ∃ (f : Filter) (t : State), lastResponse (exec i s) = some ⟨.ok, f.id, f.mask, if f.extended then 1 else 0⟩ ∧
      exec j s = .next t ∧ t.events = s.events ++ [.fprog f] ∧
      (Event.fprog f).words = [f.id, f.mask, if f.extended then 1 else 0]

/-! ### The callbacks -/

/-- 42_callbacks.md R141: SET.MBCB. -/
def Obligations.SetMbcbEffect : Prop :=
  ∀ (m : Byte) (h : Word) (s : State), s.Inv →
    encode (.setMbcb m h) = [0x00000010 ||| m.setWidth 32 <<< 8, h] ∧
    (m.toNat < s.params.nf → ∃ t, exec (.setMbcb m h) s = .next t ∧
      (∀ n, t.mbcbAt n = if n = m then some h else s.mbcbAt n) ∧ t.mbcb.length = s.mbcb.length ∧
      t = { s with mbcb := t.mbcb, responses := s.responses ++ [⟨.ok, 0, 0, 0⟩] }) ∧
    (s.params.nf ≤ m.toNat → exec (.setMbcb m h) s =
      .next { s with responses := s.responses ++ [⟨.invalidMailbox, 0, 0, 0⟩] })

/-- 42_callbacks.md R142: CLR.MBCB. -/
def Obligations.ClrMbcbEffect : Prop :=
  ∀ (m : Byte) (s : State), s.Inv →
    encode (.clrMbcb m) = [0x00000011 ||| m.setWidth 32 <<< 8] ∧
    (m.toNat < s.params.nf → ∃ t, exec (.clrMbcb m) s = .next t ∧
      (∀ n, t.mbcbAt n = if n = m then none else s.mbcbAt n) ∧ t.mbcb.length = s.mbcb.length ∧
      t = { s with mbcb := t.mbcb, responses := s.responses ++ [⟨.ok, 0, 0, 0⟩] }) ∧
    (s.params.nf ≤ m.toNat → exec (.clrMbcb m) s =
      .next { s with responses := s.responses ++ [⟨.invalidMailbox, 0, 0, 0⟩] })

/-- 42_callbacks.md R143: SET.GCB, and the wire GCB_PRESENT. -/
def Obligations.SetGcbEffect : Prop :=
  ∀ (h : Word) (s : State), encode (.setGcb h) = [0x00000012, h] ∧
    ∃ t, exec (.setGcb h) s = .next t ∧ t.gcbPresent = true ∧
      t = { s with gcb := some h, responses := s.responses ++ [⟨.ok, 0, 0, 0⟩] }

/-- 42_callbacks.md R144: the callback commands neither read nor write SLOT or LMASK, and the listener commands neither read
nor write MBCB or GCB. -/
def Obligations.CallbacksApartFromListeners : Prop :=
  (∀ (i : Instr) (s : State) (slots : Vector (Option Byte) 4) (lmask : List Word),
    i.op = .setMbcb ∨ i.op = .clrMbcb ∨ i.op = .setGcb →
    exec i { s with slots := slots, lmask := lmask } =
      mapState (fun t => { t with slots := slots, lmask := lmask }) (exec i s)) ∧
  ∀ (i : Instr) (s : State) (mbcb : List (Option Word)) (gcb : Option Word),
    i.op = .attach ∨ i.op = .detach ∨ i.op = .enMb ∨ i.op = .disMb ∨ i.op = .enGen ∨ i.op = .disGen ∨ i.op = .isEn →
    exec i { s with mbcb := mbcb, gcb := gcb } = mapState (fun t => { t with mbcb := mbcb, gcb := gcb }) (exec i s)

/-! ### The listener registry -/

/-- 41_listener_registry.md R131: ATTACH. -/
def Obligations.AttachEffect : Prop :=
  ∀ (l : Byte) (s : State), s.Inv →
    encode (.attach l) = [0x00000020 ||| l.setWidth 32 <<< 16] ∧
    (l.toNat < s.params.nl → ∀ k : Fin 4, s.slots[k] = none → (∀ j : Fin 4, j < k → s.slots[j] ≠ none) →
      ∃ t, exec (.attach l) s = .next t ∧
        (∀ j : Fin 4, t.slots[j] = if j = k then some l else s.slots[j]) ∧
        (∀ i, t.maskBit l i = false) ∧ (∀ l', l' ≠ l → t.maskAt l' = s.maskAt l') ∧ t.lmask.length = s.lmask.length ∧
        t = { s with slots := t.slots, lmask := t.lmask, responses := s.responses ++ [⟨.ok, 0, 0, 0⟩] }) ∧
    (l.toNat < s.params.nl → (∀ k : Fin 4, s.slots[k] ≠ none) →
      exec (.attach l) s = .next { s with responses := s.responses ++ [⟨.registryFull, 0, 0, 0⟩] }) ∧
    (s.params.nl ≤ l.toNat → exec (.attach l) s =
      .fault (.illegal .unknownListener { s with responses := s.responses ++ [⟨.illegal, 0, 0, 0⟩] }))

/-- 41_listener_registry.md R132: DETACH. -/
def Obligations.DetachEffect : Prop :=
  ∀ (l : Byte) (s : State),
    encode (.detach l) = [0x00000021 ||| l.setWidth 32 <<< 16] ∧
    (l.toNat < s.params.nl → ∀ k : Fin 4, s.slots[k] = some l → (∀ j : Fin 4, j < k → s.slots[j] ≠ some l) →
      ∃ t, exec (.detach l) s = .next t ∧
        (∀ j : Fin 4, t.slots[j] = if j = k then none else s.slots[j]) ∧
        t = { s with slots := t.slots, responses := s.responses ++ [⟨.ok, 0, 0, 0⟩] }) ∧
    (l.toNat < s.params.nl → (∀ k : Fin 4, s.slots[k] ≠ some l) →
      exec (.detach l) s = .next { s with responses := s.responses ++ [⟨.notFound, 0, 0, 0⟩] }) ∧
    (s.params.nl ≤ l.toNat → exec (.detach l) s =
      .fault (.illegal .unknownListener { s with responses := s.responses ++ [⟨.illegal, 0, 0, 0⟩] }))

/-- 41_listener_registry.md R134: after ATTACH a; ATTACH b; ATTACH c; DETACH b; ATTACH d from reset, d is in slot 1 (a and b
two handles); the first free slot is the one with the smallest index. -/
def Obligations.FirstFreeSlot : Prop :=
  (∀ (p : Params) (a b c d : Byte), a.toNat < p.nl → b.toNat < p.nl → c.toNat < p.nl → d.toNat < p.nl → a ≠ b →
    ∃ t, execAll [.attach a, .attach b, .attach c, .detach b, .attach d] (State.resetOf p) = some t ∧
      t.slots = #v[some a, some d, some c, none]) ∧
  ∀ (l : Byte) (s t : State) (k : Fin 4), exec (.attach l) s = .next t → t.slots[k] ≠ s.slots[k] →
    s.slots[k] = none ∧ t.slots[k] = some l ∧ ∀ j : Fin 4, j < k → s.slots[j] ≠ none

/-- 41_listener_registry.md R135: four ATTACH commands succeed from free slots, a fifth is RegistryFull and changes nothing,
after one successful DETACH the next ATTACH succeeds; and the number of valid slots goes up by one on each OK ATTACH, down by
one on each OK DETACH, and is unchanged by every other and every failed command. -/
def Obligations.RegistryCapacity : Prop :=
  (∀ (s : State) (a b c d e : Byte), (∀ k : Fin 4, s.slots[k] = none) →
    a.toNat < s.params.nl → b.toNat < s.params.nl → c.toNat < s.params.nl → d.toNat < s.params.nl →
    e.toNat < s.params.nl →
    ∃ t, execAll [.attach a, .attach b, .attach c, .attach d] s = some t ∧
      t.responses = s.responses ++ [⟨.ok, 0, 0, 0⟩, ⟨.ok, 0, 0, 0⟩, ⟨.ok, 0, 0, 0⟩, ⟨.ok, 0, 0, 0⟩] ∧
      exec (.attach e) t = .next { t with responses := t.responses ++ [⟨.registryFull, 0, 0, 0⟩] } ∧
      ∀ x u, exec (.detach x) t = .next u → u.responses = t.responses ++ [⟨.ok, 0, 0, 0⟩] →
        ∃ v, exec (.attach e) u = .next v ∧ v.responses = u.responses ++ [⟨.ok, 0, 0, 0⟩]) ∧
  ∀ (i : Instr) (s t : State), answered (exec i s) = some t →
    let ok := t.responses = s.responses ++ [⟨.ok, 0, 0, 0⟩]
    (i.op = .attach → ok → t.validSlots = s.validSlots + 1) ∧
    (i.op = .detach → ok → t.validSlots + 1 = s.validSlots) ∧
    (i.op ≠ .attach ∧ i.op ≠ .detach ∨ ¬ok → t.validSlots = s.validSlots)

/-- 41_listener_registry.md R133: an attached handle is attached again while a slot is free, and its mask is cleared again; a
successful DETACH takes one slot from the handle; and "no handle is attached twice" is kept by every command but ATTACH of an
attached handle. -/
def Obligations.DuplicateAttach : Prop :=
  (∀ (l : Byte) (s : State), s.Inv → l.toNat < s.params.nl → s.isAttached l = true → s.isFull = false →
    ∃ t, exec (.attach l) s = .next t ∧ t.slotsHolding l = s.slotsHolding l + 1 ∧ ∀ i, t.maskBit l i = false) ∧
  (∀ (l : Byte) (s : State), l.toNat < s.params.nl → s.isAttached l = true →
    ∃ t, exec (.detach l) s = .next t ∧ t.slotsHolding l + 1 = s.slotsHolding l) ∧
  ∀ (i : Instr) (s t : State), s.NoHandleTwice → exec i s = .next t →
    (∀ l, i = .attach l → s.isAttached l = false) → t.NoHandleTwice

/-! ### The listener masks -/

/-- 43_listener_masks.md R151, R152: EN.MB sets and DIS.MB clears one mailbox bit. -/
def Obligations.MailboxBitEffect : Prop :=
  ∀ (l m : Byte) (b : Bool) (i : Instr) (s : State), s.Inv → i = (if b then .enMb l m else .disMb l m) →
    encode i = [(if b then 0x00000028 else 0x00000029) ||| m.setWidth 32 <<< 8 ||| l.setWidth 32 <<< 16] ∧
    (l.toNat < s.params.nl → m.toNat < s.params.nf → ∃ t, exec i s = .next t ∧
      (∀ k j, t.maskBit k j = if k = l ∧ j = m.toNat then b else s.maskBit k j) ∧ t.lmask.length = s.lmask.length ∧
      t = { s with lmask := t.lmask, responses := s.responses ++ [⟨.ok, 0, 0, 0⟩] }) ∧
    (l.toNat < s.params.nl → s.params.nf ≤ m.toNat →
      exec i s = .next { s with responses := s.responses ++ [⟨.invalidMailbox, 0, 0, 0⟩] }) ∧
    (s.params.nl ≤ l.toNat →
      exec i s = .fault (.illegal .unknownListener { s with responses := s.responses ++ [⟨.illegal, 0, 0, 0⟩] }))

/-- 43_listener_masks.md R153, R154: EN.GEN sets and DIS.GEN clears the general bit, bit NF. -/
def Obligations.GeneralBitEffect : Prop :=
  ∀ (l : Byte) (b : Bool) (i : Instr) (s : State), s.Inv → i = (if b then .enGen l else .disGen l) →
    encode i = [(if b then 0x0000002A else 0x0000002B) ||| l.setWidth 32 <<< 16] ∧
    (l.toNat < s.params.nl → ∃ t, exec i s = .next t ∧
      (∀ k j, t.maskBit k j = if k = l ∧ j = s.params.nf then b else s.maskBit k j) ∧ t.lmask.length = s.lmask.length ∧
      t = { s with lmask := t.lmask, responses := s.responses ++ [⟨.ok, 0, 0, 0⟩] }) ∧
    (s.params.nl ≤ l.toNat →
      exec i s = .fault (.illegal .unknownListener { s with responses := s.responses ++ [⟨.illegal, 0, 0, 0⟩] }))

/-- 43_listener_masks.md R155: IS.EN. -/
def Obligations.IsEnReply : Prop :=
  ∀ (l i : Byte) (s : State),
    encode (.isEn l i) = [0x0000002C ||| i.setWidth 32 <<< 8 ||| l.setWidth 32 <<< 16] ∧
    (l.toNat < s.params.nl → i.toNat ≤ s.params.nf → exec (.isEn l i) s =
      .next { s with responses := s.responses ++ [⟨.ok, if s.maskBit l i.toNat then 1 else 0, 0, 0⟩] }) ∧
    (s.params.nl ≤ l.toNat → exec (.isEn l i) s =
      .fault (.illegal .unknownListener { s with responses := s.responses ++ [⟨.illegal, 0, 0, 0⟩] })) ∧
    (l.toNat < s.params.nl → s.params.nf < i.toNat → exec (.isEn l i) s =
      .fault (.illegal .outOfDomain { s with responses := s.responses ++ [⟨.illegal, 0, 0, 0⟩] }))

/-- 43_listener_masks.md R156: what IS.EN reads back after EN and DIS, that every other bit stays, that doing it twice is
doing it once, and that commands on different bits or different listeners commute. -/
def Obligations.MaskLaws : Prop :=
  ∀ (s : State) (l m : Byte), s.Inv → l.toNat < s.params.nl → m.toNat < s.params.nf →
    let gen : Byte := BitVec.ofNat 8 s.params.nf
    let reads : Instr → Byte → Word → Prop := fun i j w =>
      ∃ t, exec i s = .next t ∧ lastResponse (exec (.isEn l j) t) = some ⟨.ok, w, 0, 0⟩
    let masksAfter : List Instr → Option (List Word) := fun is => (execAll is s).map (·.lmask)
    (reads (.enMb l m) m 1 ∧ reads (.disMb l m) m 0 ∧ reads (.enGen l) gen 1 ∧ reads (.disGen l) gen 0) ∧
    (∀ i j t, (i, j) ∈ [(Instr.enMb l m, m.toNat), (.disMb l m, m.toNat), (.enGen l, s.params.nf),
        (.disGen l, s.params.nf)] → exec i s = .next t →
      ∀ k n, (k, n) ≠ (l, j) → t.maskBit k n = s.maskBit k n) ∧
    (∀ i ∈ [Instr.enMb l m, .disMb l m, .enGen l, .disGen l], masksAfter [i, i] = masksAfter [i]) ∧
    ∀ (l' m' : Byte), l'.toNat < s.params.nl → m'.toNat < s.params.nf →
      ∀ i ∈ [Instr.enMb l m, .disMb l m, .enGen l, .disGen l],
      ∀ j ∈ [Instr.enMb l' m', .disMb l' m', .enGen l', .disGen l'],
        l ≠ l' ∨ (if i.op = .enMb ∨ i.op = .disMb then some m else none) ≠
          (if j.op = .enMb ∨ j.op = .disMb then some m' else none) →
        masksAfter [i, j] = masksAfter [j, i]

/-! ### Dispatch -/

/-- 44_dispatch.md R166: DISPATCH, its events in the order of R172, the drop count and the reply. -/
def Obligations.DispatchEffect : Prop :=
  ∀ (m : Byte) (f : Frame) (s : State),
    encode (.dispatch m f) = [0x00000030 ||| m.setWidth 32 <<< 8, f.fw0, f.fw1, f.fw2, f.fw3, f.fw4, f.fw5] ∧
    (m.toNat < s.params.nf →
      let step1 : List Event := (s.mbcbAt m).toList.map fun h => .deliv .cbMb m h f
      let step2 : List Event := s.slots.toList.flatMap fun o => o.toList.flatMap fun l =>
        if s.maskBit l m.toNat = true then [.deliv .lsMb m (l.setWidth 32) f] else []
      let step3 : List Event := if s.mbcbAt m = none then s.gcb.toList.map fun h => .deliv .cbGen m h f else []
      let step4 : List Event := s.slots.toList.flatMap fun o => o.toList.flatMap fun l =>
        if s.maskBit l m.toNat = false ∧ s.maskBit l s.params.nf = true then [.deliv .lsGen m (l.setWidth 32) f] else []
      let es := step1 ++ step2 ++ step3 ++ step4
      exec (.dispatch m f) s =
        .next { s with
          drops := if es.length = 0 then s.drops + 1 else s.drops
          events := s.events ++ es
          responses := s.responses ++ [⟨.ok, BitVec.ofNat 32 es.length, 0, 0⟩] }) ∧
    (s.params.nf ≤ m.toNat → exec (.dispatch m f) s =
      .fault (.illegal .outOfDomain { s with responses := s.responses ++ [⟨.illegal, 0, 0, 0⟩] }))

/-- 44_dispatch.md R178: the decision table. The callback column decides the callback events, and each slot's columns decide
that slot's event, whatever the other columns say. -/
def Obligations.DecisionTable : Prop :=
  ∀ (m : Byte) (f : Frame) (s : State), m.toNat < s.params.nf →
    ∃ t es, exec (.dispatch m f) s = .next t ∧ t.events = s.events ++ es ∧
      (es.filter fun e => e.listener?.isNone) =
        (match s.mbcbAt m, s.gcb with
         | some h, none => [.deliv .cbMb m h f]
         | some h, some _ => [.deliv .cbMb m h f]
         | none, some h => [.deliv .cbGen m h f]
         | none, none => []) ∧
      (es.filter fun e => e.listener?.isSome).Perm
        (s.slots.toList.flatMap fun o => match o with
         | none => []
         | some l =>
           match s.maskBit l m.toNat, s.maskBit l s.params.nf with
           | true, false => [.deliv .lsMb m (l.setWidth 32) f]
           | true, true => [.deliv .lsMb m (l.setWidth 32) f]
           | false, true => [.deliv .lsGen m (l.setWidth 32) f]
           | false, false => [])

/-- 44_dispatch.md R167, R168, R169: when each kind of delivery occurs, and on what alone it depends. -/
def Obligations.DeliveryConditions : Prop :=
  ∀ (m : Byte) (f : Frame) (s : State), m.toNat < s.params.nf →
    ∃ t es, exec (.dispatch m f) s = .next t ∧ t.events = s.events ++ es ∧
      (∀ h, Event.deliv .cbMb m h f ∈ es ↔ s.mbcbAt m = some h) ∧
      (∀ h, Event.deliv .cbGen m h f ∈ es ↔ s.mbcbAt m = none ∧ s.gcb = some h) ∧
      (∀ l : Byte, Event.deliv .lsMb m (l.setWidth 32) f ∈ es ↔
        s.isAttached l = true ∧ s.maskBit l m.toNat = true) ∧
      (∀ l : Byte, Event.deliv .lsGen m (l.setWidth 32) f ∈ es ↔
        s.isAttached l = true ∧ s.maskBit l m.toNat = false ∧ s.maskBit l s.params.nf = true)

/-- 44_dispatch.md R171: a frame that reaches nobody is dropped, which the counter alone shows, and exactly when no callback
and no attached listener is interested. -/
def Obligations.DropRule : Prop :=
  ∀ (m : Byte) (f : Frame) (s : State), m.toNat < s.params.nf →
    let nobody := s.mbcbAt m = none ∧ s.gcb = none ∧
      ∀ (i : Fin 4) (l : Byte), s.slots[i] = some l →
        s.maskBit l m.toNat = false ∧ s.maskBit l s.params.nf = false
    ∃ t es r, exec (.dispatch m f) s = .next t ∧ t.events = s.events ++ es ∧ t.responses = s.responses ++ [r] ∧
      r.status = .ok ∧
      (es = [] ↔ nobody) ∧
      (nobody → r.r0 = 0 ∧ t.drops.toNat = (s.drops.toNat + 1) % 2 ^ 32 ∧
        t = { s with drops := t.drops, responses := t.responses }) ∧
      (¬nobody → t.drops = s.drops)

/-- 44_dispatch.md R177: at most one callback event, at most one event per valid slot, at most 5 events; R0 is their number,
and it is 0 exactly when DROPS was incremented. -/
def Obligations.DeliveryBounds : Prop :=
  ∀ (m : Byte) (f : Frame) (s : State), m.toNat < s.params.nf →
    ∃ t es r, exec (.dispatch m f) s = .next t ∧ t.events = s.events ++ es ∧ t.responses = s.responses ++ [r] ∧
      (es.countP fun e => e.listener?.isNone) ≤ 1 ∧
      (es.countP fun e => e.listener?.isSome) ≤ s.validSlots ∧
      es.length ≤ 5 ∧ r.r0.toNat = es.length ∧ (r.r0 = 0 ↔ t.drops = s.drops + 1)

/-- 44_dispatch.md R173, R175: the frame is opaque and DISPATCH leaves the registration as it found it. Two DISPATCH commands
on one mailbox with any two frames, the second run after the first, emit the same kinds and targets, and every delivery
carries the frame and the mailbox index the command brought. -/
def Obligations.FrameOpaque : Prop :=
  ∀ (m : Byte) (f g : Frame) (s : State), m.toNat < s.params.nf →
    ∃ t u es es', exec (.dispatch m f) s = .next t ∧ exec (.dispatch m g) t = .next u ∧
      t.events = s.events ++ es ∧ u.events = t.events ++ es' ∧
      es.map Event.route? = es'.map Event.route? ∧
      (∀ e ∈ es, ∃ k w, e = .deliv k m w f) ∧
      t = { s with drops := t.drops, events := t.events, responses := t.responses }

/-- 44_dispatch.md R170: a handle gets one delivery per slot that holds it if its mask has bit m or the general bit, else
none, all on the same path. -/
def Obligations.OneDeliveryPerSlot : Prop :=
  ∀ (m : Byte) (f : Frame) (s : State) (l : Byte), m.toNat < s.params.nf →
    ∃ t es, exec (.dispatch m f) s = .next t ∧ t.events = s.events ++ es ∧
      (es.filter fun e => e.listener? = some (l.setWidth 32)) =
        (if s.maskBit l m.toNat = true then List.replicate (s.slotsHolding l) (.deliv .lsMb m (l.setWidth 32) f)
         else if s.maskBit l s.params.nf = true then
           List.replicate (s.slotsHolding l) (.deliv .lsGen m (l.setWidth 32) f)
         else [])

/-- 44_dispatch.md R176: RD.DROP. -/
def Obligations.RdDropReply : Prop :=
  ∀ s : State, encode .rdDrop = [0x00000038] ∧
    exec .rdDrop s = .next { s with responses := s.responses ++ [⟨.ok, s.drops, 0, 0⟩] }

/-! ### Across the families -/

/-- 20_memory.md R57: IS.EN, RD.DROP and the SYN commands change nothing, and the same command repeated, with no writing
command in between (only SYN, WATCH, IS.EN and RD.DROP, R56), returns the same response. -/
def Obligations.ReadsHaveNoSideEffect : Prop :=
  ∀ (i : Instr) (between : List Instr) (s t u : State),
    let readOnly : Instr → Prop := fun i =>
      i.op = .synId ∨ i.op = .synIdm ∨ i.op = .synRng ∨ i.op = .isEn ∨ i.op = .rdDrop
    let writesNothing : Instr → Prop := fun i =>
      readOnly i ∨ i.op = .watchAll ∨ i.op = .watchId ∨ i.op = .watchIdm ∨ i.op = .watchRng
    readOnly i → (∀ j ∈ between, writesNothing j) → exec i s = .next t → execAll between t = some u →
    t = { s with responses := t.responses } ∧ lastResponse (exec i u) = lastResponse (exec i s)

/-- 70_reset_and_hazards.md R236: a successful ATTACH clears every bit enabled before it, so a DISPATCH that follows delivers
nothing to the handle; the mask survives a DETACH, and not the ATTACH after it. -/
def Obligations.AttachBeforeEnable : Prop :=
  ∀ (s t : State) (l : Byte), s.Inv → exec (.attach l) s = .next t → t.responses = s.responses ++ [⟨.ok, 0, 0, 0⟩] →
    (∀ i : Byte, i.toNat ≤ s.params.nf → lastResponse (exec (.isEn l i) t) = some ⟨.ok, 0, 0, 0⟩) ∧
    (∀ (m : Byte) (f : Frame), m.toNat < s.params.nf →
      ∃ u es, exec (.dispatch m f) t = .next u ∧ u.events = t.events ++ es ∧
        ∀ e ∈ es, e.listener? ≠ some (l.setWidth 32)) ∧
    ∀ v, exec (.detach l) s = .next v → v.lmask = s.lmask

/-- 30_encoding.md R78 to R81: the words of a response packet, of a delivery event packet and of a filter-program event
packet, with the status and kind numbers. -/
def Obligations.PacketLayouts : Prop :=
  (∀ r : Response, ∃ w0 : Word, r.words = [w0, r.r0, r.r1, r.r2] ∧ w0 =
    match r.status with
    | .ok => 0x00
    | .invalidMailbox => 0x01
    | .registryFull => 0x02
    | .notFound => 0x03
    | .illegal => 0xFF) ∧
  (∀ (k : DeliveryKind) (m : Byte) (w : Word) (f : Frame), ∃ w0 : Word,
    (Event.deliv k m w f).words = [w0, w, f.fw0, f.fw1, f.fw2, f.fw3, f.fw4, f.fw5] ∧
    w0 = (m.setWidth 32 <<< 8) |||
      match k with
      | .cbMb => 0
      | .lsMb => 1
      | .cbGen => 2
      | .lsGen => 3) ∧
  ∀ f : Filter, (Event.fprog f).words = [f.id, f.mask, if f.extended then 1 else 0]

/-- 20_memory.md R54: the little-endian payload views of a frame. -/
def Obligations.PayloadViews : Prop :=
  ∀ f : Frame,
    frameLo32 f = f.fw4 ∧ frameHi32 f = f.fw5 ∧
    frameLo32 f = frameS1 f ++ frameS0 f ∧ frameHi32 f = frameS3 f ++ frameS2 f ∧
    (∀ i : Fin 4, frameByte f ⟨i.val, by omega⟩ = (f.fw4 >>> (8 * i.val)).setWidth 8) ∧
    (∀ i : Fin 4, frameByte f ⟨i.val + 4, by omega⟩ = (f.fw5 >>> (8 * i.val)).setWidth 8) ∧
    frameS0 f = frameByte f 1 ++ frameByte f 0 ∧ frameS1 f = frameByte f 3 ++ frameByte f 2 ∧
    frameS2 f = frameByte f 5 ++ frameByte f 4 ∧ frameS3 f = frameByte f 7 ++ frameByte f 6
end

