-- ==== Sys2Proof/Laws/Decode.lean ====
section
/-!
SUPPORT. The small lemmas of the decoder and encoder: a header's fields, the opcode lookup, packet lengths.
-/

namespace Sys2Proof

/-- The bits of a header word, field by field (R71). -/
theorem headerWord_getLsbD (o : Op) (l i : Byte) (k : Nat) :
    (headerWord o l i).getLsbD k =
      if k < 8 then o.code.getLsbD k
      else if k - 8 < 8 then i.getLsbD (k - 8)
      else if k - 8 - 8 < 8 then l.getLsbD (k - 8 - 8) else false := by
  change (BitVec.getLsbD (w := 8 + 8 + 8 + 8) (0#8 ++ l ++ i ++ o.code) k) = _
  simp only [BitVec.getLsbD_append, BitVec.getLsbD_zero]

@[simp] theorem hdrOp_headerWord (o : Op) (l i : Byte) : hdrOp (headerWord o l i) = o.code := by
  apply BitVec.eq_of_getLsbD_eq
  intro k hk
  simp only [hdrOp, BitVec.getLsbD_extractLsb', headerWord_getLsbD, hk, Nat.zero_add, decide_true,
    Bool.true_and, if_true]

@[simp] theorem hdrIdx_headerWord (o : Op) (l i : Byte) : hdrIdx (headerWord o l i) = i := by
  apply BitVec.eq_of_getLsbD_eq
  intro k hk
  simp only [hdrIdx, BitVec.getLsbD_extractLsb', headerWord_getLsbD, hk, decide_true, Bool.true_and]
  simp [show ¬ 8 + k < 8 by omega, hk]

@[simp] theorem hdrLid_headerWord (o : Op) (l i : Byte) : hdrLid (headerWord o l i) = l := by
  apply BitVec.eq_of_getLsbD_eq
  intro k hk
  simp only [hdrLid, BitVec.getLsbD_extractLsb', headerWord_getLsbD, hk, decide_true, Bool.true_and]
  simp [show ¬ 16 + k < 8 by omega, show ¬ 16 + k - 8 < 8 by omega, show 16 + k - 8 - 8 = k by omega, hk]

@[simp] theorem hdrRsv_headerWord (o : Op) (l i : Byte) : hdrRsv (headerWord o l i) = 0 := by
  apply BitVec.eq_of_getLsbD_eq
  intro k hk
  simp only [hdrRsv, BitVec.getLsbD_extractLsb', headerWord_getLsbD, hk, decide_true, Bool.true_and]
  simp [show ¬ 24 + k < 8 by omega, show ¬ 24 + k - 8 < 8 by omega, show ¬ 24 + k - 8 - 8 < 8 by omega]

/-- A header is determined by its four fields (R71). -/
theorem header_ext {g h : Word} (h1 : hdrOp g = hdrOp h) (h2 : hdrIdx g = hdrIdx h) (h3 : hdrLid g = hdrLid h)
    (h4 : hdrRsv g = hdrRsv h) : g = h := by
  have bit (f : Word → Byte) (n : Nat) (hf : ∀ w, f w = w.extractLsb' n 8) (e : f g = f h) (k : Nat)
      (hk : k < 8) : g.getLsbD (n + k) = h.getLsbD (n + k) := by
    simpa [hf, hk] using congrArg (fun b => BitVec.getLsbD b k) e
  apply BitVec.eq_of_getLsbD_eq
  intro k hk
  by_cases hk1 : k < 8
  · simpa using bit hdrOp 0 (fun _ => rfl) h1 k hk1
  by_cases hk2 : k < 16
  · simpa [show 8 + (k - 8) = k by omega] using bit hdrIdx 8 (fun _ => rfl) h2 (k - 8) (by omega)
  by_cases hk3 : k < 24
  · simpa [show 16 + (k - 16) = k by omega] using bit hdrLid 16 (fun _ => rfl) h3 (k - 16) (by omega)
  · simpa [show 24 + (k - 24) = k by omega] using bit hdrRsv 24 (fun _ => rfl) h4 (k - 24) (by omega)

@[simp] theorem Op.ofCode_code (o : Op) : Op.ofCode o.code = some o := by
  cases o <;> decide

theorem Op.code_of_ofCode {b : Byte} {o : Op} (h : Op.ofCode b = some o) : o.code = b := by
  simpa using List.find?_some h

theorem Op.ofCode_eq_some {b : Byte} {o : Op} : Op.ofCode b = some o ↔ o.code = b :=
  ⟨Op.code_of_ofCode, fun h => h ▸ Op.ofCode_code o⟩

/-- A byte is unassigned when no row has it as its opcode (R77 case 1). -/
theorem Op.ofCode_eq_none {b : Byte} : Op.ofCode b = none ↔ ∀ o : Op, o.code ≠ b := by
  constructor
  · intro h o ho
    rw [Op.ofCode_eq_some.2 ho] at h
    cases h
  · intro h
    cases ho : Op.ofCode b with
    | none => rfl
    | some o => exact absurd (Op.code_of_ofCode ho) (h o)

/-- A header passes R77 cases 2 and 3. -/
theorem headerFault_eq_none {o : Op} {h : Word} :
    headerFault o h = none ↔
      hdrRsv h = 0 ∧ (o.usesIdx = false → hdrIdx h = 0) ∧ (o.usesLid = false → hdrLid h = 0) := by
  unfold headerFault
  split
  · rename_i h1; exact ⟨nofun, fun h2 => absurd h2.1 h1⟩
  · rename_i h1
    rw [not_not] at h1
    cases hi : o.usesIdx <;> cases hl : o.usesLid <;> simp [h1]

@[simp] theorem buildInstr_op (o : Op) (h : Word) (ws : List Word) : (buildInstr o h ws).op = o := by
  cases o <;> rfl

@[simp] theorem packetWords_headerWord (o : Op) (l i : Byte) :
    packetWords (headerWord o l i) = o.format.words := by
  simp [packetWords]

theorem Format.words_pos (f : Format) : 1 ≤ f.words := by cases f <;> decide

theorem packetWords_pos (h : Word) : 1 ≤ packetWords h := by
  unfold packetWords; split
  · exact Nat.le_refl 1
  · exact Format.words_pos _

/-! The row of each command (R76). -/

@[simp] theorem Instr.op_synId (id : Word) : (Instr.synId id).op = .synId := rfl
@[simp] theorem Instr.op_synIdm (id mask : Word) : (Instr.synIdm id mask).op = .synIdm := rfl
@[simp] theorem Instr.op_synRng (a b : Word) : (Instr.synRng a b).op = .synRng := rfl
@[simp] theorem Instr.op_watchAll : Instr.watchAll.op = .watchAll := rfl
@[simp] theorem Instr.op_watchId (id : Word) : (Instr.watchId id).op = .watchId := rfl
@[simp] theorem Instr.op_watchIdm (id mask : Word) : (Instr.watchIdm id mask).op = .watchIdm := rfl
@[simp] theorem Instr.op_watchRng (a b : Word) : (Instr.watchRng a b).op = .watchRng := rfl
@[simp] theorem Instr.op_setMbcb (idx : Byte) (h : Word) : (Instr.setMbcb idx h).op = .setMbcb := rfl
@[simp] theorem Instr.op_clrMbcb (idx : Byte) : (Instr.clrMbcb idx).op = .clrMbcb := rfl
@[simp] theorem Instr.op_setGcb (h : Word) : (Instr.setGcb h).op = .setGcb := rfl
@[simp] theorem Instr.op_attach (lid : Byte) : (Instr.attach lid).op = .attach := rfl
@[simp] theorem Instr.op_detach (lid : Byte) : (Instr.detach lid).op = .detach := rfl
@[simp] theorem Instr.op_enMb (lid idx : Byte) : (Instr.enMb lid idx).op = .enMb := rfl
@[simp] theorem Instr.op_disMb (lid idx : Byte) : (Instr.disMb lid idx).op = .disMb := rfl
@[simp] theorem Instr.op_enGen (lid : Byte) : (Instr.enGen lid).op = .enGen := rfl
@[simp] theorem Instr.op_disGen (lid : Byte) : (Instr.disGen lid).op = .disGen := rfl
@[simp] theorem Instr.op_isEn (lid idx : Byte) : (Instr.isEn lid idx).op = .isEn := rfl
@[simp] theorem Instr.op_dispatch (idx : Byte) (frame : Frame) : (Instr.dispatch idx frame).op = .dispatch := rfl
@[simp] theorem Instr.op_rdDrop : Instr.rdDrop.op = .rdDrop := rfl

/-- A command's packet is its header word followed by operand words, as long as its format says. -/
theorem encode_eq_header (i : Instr) :
    ∃ l x ws, encode i = headerWord i.op l x :: ws ∧ ws.length + 1 = i.op.format.words := by
  cases i <;> exact ⟨_, _, _, rfl, rfl⟩

theorem encode_length (i : Instr) : (encode i).length = i.op.format.words := by
  cases i <;> rfl

/-- Decoding a word list with an assigned opcode and enough operand words. -/
theorem decode_of_op {h : Word} {ws : List Word} {o : Op} (ho : Op.ofCode (hdrOp h) = some o)
    (hw : o.format.words ≤ ws.length + 1) :
    decode (h :: ws) =
      match headerFault o h with
      | some c => .illegal c o.format.words
      | none => .instr (buildInstr o h ws) o.format.words := by
  cases hf : headerFault o h <;> simp [decode, ho, Nat.not_lt.mpr hw, hf]

theorem decode_of_noOp {h : Word} {ws : List Word} (ho : Op.ofCode (hdrOp h) = none) :
    decode (h :: ws) = .illegal .unknownOpcode 1 := by
  simp [decode, ho]

end Sys2Proof
end

