-- ==== Sys2Proof/Laws/State.lean ====
section
/-!
SUPPORT. One lemma per field per update of State: what each named operation writes, and that it leaves every other field
as it was. True by unfolding once here, so that no later proof unfolds a record update.
-/

namespace Sys2Proof.Machine

@[simp] theorem State.reply_params (s : State) (st : Status) (r0 r1 r2 : Word) :
    (s.reply st r0 r1 r2).params = s.params := rfl
@[simp] theorem State.reply_mbcb (s : State) (st : Status) (r0 r1 r2 : Word) :
    (s.reply st r0 r1 r2).mbcb = s.mbcb := rfl
@[simp] theorem State.reply_gcb (s : State) (st : Status) (r0 r1 r2 : Word) :
    (s.reply st r0 r1 r2).gcb = s.gcb := rfl
@[simp] theorem State.reply_slots (s : State) (st : Status) (r0 r1 r2 : Word) :
    (s.reply st r0 r1 r2).slots = s.slots := rfl
@[simp] theorem State.reply_lmask (s : State) (st : Status) (r0 r1 r2 : Word) :
    (s.reply st r0 r1 r2).lmask = s.lmask := rfl
@[simp] theorem State.reply_drops (s : State) (st : Status) (r0 r1 r2 : Word) :
    (s.reply st r0 r1 r2).drops = s.drops := rfl
@[simp] theorem State.reply_inputs (s : State) (st : Status) (r0 r1 r2 : Word) :
    (s.reply st r0 r1 r2).inputs = s.inputs := rfl
@[simp] theorem State.reply_drvIn (s : State) (st : Status) (r0 r1 r2 : Word) :
    (s.reply st r0 r1 r2).drvIn = s.drvIn := rfl
@[simp] theorem State.reply_drvDraws (s : State) (st : Status) (r0 r1 r2 : Word) :
    (s.reply st r0 r1 r2).drvDraws = s.drvDraws := rfl
@[simp] theorem State.reply_responses (s : State) (st : Status) (r0 r1 r2 : Word) :
    (s.reply st r0 r1 r2).responses = s.responses ++ [⟨st, r0, r1, r2⟩] := rfl
@[simp] theorem State.reply_events (s : State) (st : Status) (r0 r1 r2 : Word) :
    (s.reply st r0 r1 r2).events = s.events := rfl

@[simp] theorem State.replyOk_params (s : State) :
    s.replyOk.params = s.params := rfl
@[simp] theorem State.replyOk_mbcb (s : State) :
    s.replyOk.mbcb = s.mbcb := rfl
@[simp] theorem State.replyOk_gcb (s : State) :
    s.replyOk.gcb = s.gcb := rfl
@[simp] theorem State.replyOk_slots (s : State) :
    s.replyOk.slots = s.slots := rfl
@[simp] theorem State.replyOk_lmask (s : State) :
    s.replyOk.lmask = s.lmask := rfl
@[simp] theorem State.replyOk_drops (s : State) :
    s.replyOk.drops = s.drops := rfl
@[simp] theorem State.replyOk_inputs (s : State) :
    s.replyOk.inputs = s.inputs := rfl
@[simp] theorem State.replyOk_drvIn (s : State) :
    s.replyOk.drvIn = s.drvIn := rfl
@[simp] theorem State.replyOk_drvDraws (s : State) :
    s.replyOk.drvDraws = s.drvDraws := rfl
@[simp] theorem State.replyOk_responses (s : State) :
    s.replyOk.responses = s.responses ++ [⟨.ok, 0, 0, 0⟩] := rfl
@[simp] theorem State.replyOk_events (s : State) :
    s.replyOk.events = s.events := rfl

@[simp] theorem State.replyFilter_params (s : State) (f : Filter) :
    (s.replyFilter f).params = s.params := rfl
@[simp] theorem State.replyFilter_mbcb (s : State) (f : Filter) :
    (s.replyFilter f).mbcb = s.mbcb := rfl
@[simp] theorem State.replyFilter_gcb (s : State) (f : Filter) :
    (s.replyFilter f).gcb = s.gcb := rfl
@[simp] theorem State.replyFilter_slots (s : State) (f : Filter) :
    (s.replyFilter f).slots = s.slots := rfl
@[simp] theorem State.replyFilter_lmask (s : State) (f : Filter) :
    (s.replyFilter f).lmask = s.lmask := rfl
@[simp] theorem State.replyFilter_drops (s : State) (f : Filter) :
    (s.replyFilter f).drops = s.drops := rfl
@[simp] theorem State.replyFilter_inputs (s : State) (f : Filter) :
    (s.replyFilter f).inputs = s.inputs := rfl
@[simp] theorem State.replyFilter_drvIn (s : State) (f : Filter) :
    (s.replyFilter f).drvIn = s.drvIn := rfl
@[simp] theorem State.replyFilter_drvDraws (s : State) (f : Filter) :
    (s.replyFilter f).drvDraws = s.drvDraws := rfl
@[simp] theorem State.replyFilter_responses (s : State) (f : Filter) :
    (s.replyFilter f).responses = s.responses ++ [⟨.ok, f.id, f.mask, boolWord f.extended⟩] := rfl
@[simp] theorem State.replyFilter_events (s : State) (f : Filter) :
    (s.replyFilter f).events = s.events := rfl

@[simp] theorem State.emit_params (s : State) (es : List Event) :
    (s.emit es).params = s.params := rfl
@[simp] theorem State.emit_mbcb (s : State) (es : List Event) :
    (s.emit es).mbcb = s.mbcb := rfl
@[simp] theorem State.emit_gcb (s : State) (es : List Event) :
    (s.emit es).gcb = s.gcb := rfl
@[simp] theorem State.emit_slots (s : State) (es : List Event) :
    (s.emit es).slots = s.slots := rfl
@[simp] theorem State.emit_lmask (s : State) (es : List Event) :
    (s.emit es).lmask = s.lmask := rfl
@[simp] theorem State.emit_drops (s : State) (es : List Event) :
    (s.emit es).drops = s.drops := rfl
@[simp] theorem State.emit_inputs (s : State) (es : List Event) :
    (s.emit es).inputs = s.inputs := rfl
@[simp] theorem State.emit_drvIn (s : State) (es : List Event) :
    (s.emit es).drvIn = s.drvIn := rfl
@[simp] theorem State.emit_drvDraws (s : State) (es : List Event) :
    (s.emit es).drvDraws = s.drvDraws := rfl
@[simp] theorem State.emit_responses (s : State) (es : List Event) :
    (s.emit es).responses = s.responses := rfl
@[simp] theorem State.emit_events (s : State) (es : List Event) :
    (s.emit es).events = s.events ++ es := rfl

@[simp] theorem State.setMbcbAt_params (s : State) (m : Byte) (v : Option Word) :
    (s.setMbcbAt m v).params = s.params := rfl
@[simp] theorem State.setMbcbAt_mbcb (s : State) (m : Byte) (v : Option Word) :
    (s.setMbcbAt m v).mbcb = s.mbcb.set m.toNat v := rfl
@[simp] theorem State.setMbcbAt_gcb (s : State) (m : Byte) (v : Option Word) :
    (s.setMbcbAt m v).gcb = s.gcb := rfl
@[simp] theorem State.setMbcbAt_slots (s : State) (m : Byte) (v : Option Word) :
    (s.setMbcbAt m v).slots = s.slots := rfl
@[simp] theorem State.setMbcbAt_lmask (s : State) (m : Byte) (v : Option Word) :
    (s.setMbcbAt m v).lmask = s.lmask := rfl
@[simp] theorem State.setMbcbAt_drops (s : State) (m : Byte) (v : Option Word) :
    (s.setMbcbAt m v).drops = s.drops := rfl
@[simp] theorem State.setMbcbAt_inputs (s : State) (m : Byte) (v : Option Word) :
    (s.setMbcbAt m v).inputs = s.inputs := rfl
@[simp] theorem State.setMbcbAt_drvIn (s : State) (m : Byte) (v : Option Word) :
    (s.setMbcbAt m v).drvIn = s.drvIn := rfl
@[simp] theorem State.setMbcbAt_drvDraws (s : State) (m : Byte) (v : Option Word) :
    (s.setMbcbAt m v).drvDraws = s.drvDraws := rfl
@[simp] theorem State.setMbcbAt_responses (s : State) (m : Byte) (v : Option Word) :
    (s.setMbcbAt m v).responses = s.responses := rfl
@[simp] theorem State.setMbcbAt_events (s : State) (m : Byte) (v : Option Word) :
    (s.setMbcbAt m v).events = s.events := rfl

@[simp] theorem State.setGcb_params (s : State) (h : Word) :
    (s.setGcb h).params = s.params := rfl
@[simp] theorem State.setGcb_mbcb (s : State) (h : Word) :
    (s.setGcb h).mbcb = s.mbcb := rfl
@[simp] theorem State.setGcb_gcb (s : State) (h : Word) :
    (s.setGcb h).gcb = some h := rfl
@[simp] theorem State.setGcb_slots (s : State) (h : Word) :
    (s.setGcb h).slots = s.slots := rfl
@[simp] theorem State.setGcb_lmask (s : State) (h : Word) :
    (s.setGcb h).lmask = s.lmask := rfl
@[simp] theorem State.setGcb_drops (s : State) (h : Word) :
    (s.setGcb h).drops = s.drops := rfl
@[simp] theorem State.setGcb_inputs (s : State) (h : Word) :
    (s.setGcb h).inputs = s.inputs := rfl
@[simp] theorem State.setGcb_drvIn (s : State) (h : Word) :
    (s.setGcb h).drvIn = s.drvIn := rfl
@[simp] theorem State.setGcb_drvDraws (s : State) (h : Word) :
    (s.setGcb h).drvDraws = s.drvDraws := rfl
@[simp] theorem State.setGcb_responses (s : State) (h : Word) :
    (s.setGcb h).responses = s.responses := rfl
@[simp] theorem State.setGcb_events (s : State) (h : Word) :
    (s.setGcb h).events = s.events := rfl

@[simp] theorem State.setSlot_params (s : State) (i : Fin 4) (v : Option Byte) :
    (s.setSlot i v).params = s.params := rfl
@[simp] theorem State.setSlot_mbcb (s : State) (i : Fin 4) (v : Option Byte) :
    (s.setSlot i v).mbcb = s.mbcb := rfl
@[simp] theorem State.setSlot_gcb (s : State) (i : Fin 4) (v : Option Byte) :
    (s.setSlot i v).gcb = s.gcb := rfl
@[simp] theorem State.setSlot_slots (s : State) (i : Fin 4) (v : Option Byte) :
    (s.setSlot i v).slots = s.slots.set i.val v i.isLt := rfl
@[simp] theorem State.setSlot_lmask (s : State) (i : Fin 4) (v : Option Byte) :
    (s.setSlot i v).lmask = s.lmask := rfl
@[simp] theorem State.setSlot_drops (s : State) (i : Fin 4) (v : Option Byte) :
    (s.setSlot i v).drops = s.drops := rfl
@[simp] theorem State.setSlot_inputs (s : State) (i : Fin 4) (v : Option Byte) :
    (s.setSlot i v).inputs = s.inputs := rfl
@[simp] theorem State.setSlot_drvIn (s : State) (i : Fin 4) (v : Option Byte) :
    (s.setSlot i v).drvIn = s.drvIn := rfl
@[simp] theorem State.setSlot_drvDraws (s : State) (i : Fin 4) (v : Option Byte) :
    (s.setSlot i v).drvDraws = s.drvDraws := rfl
@[simp] theorem State.setSlot_responses (s : State) (i : Fin 4) (v : Option Byte) :
    (s.setSlot i v).responses = s.responses := rfl
@[simp] theorem State.setSlot_events (s : State) (i : Fin 4) (v : Option Byte) :
    (s.setSlot i v).events = s.events := rfl

@[simp] theorem State.setMask_params (s : State) (l : Byte) (v : Word) :
    (s.setMask l v).params = s.params := rfl
@[simp] theorem State.setMask_mbcb (s : State) (l : Byte) (v : Word) :
    (s.setMask l v).mbcb = s.mbcb := rfl
@[simp] theorem State.setMask_gcb (s : State) (l : Byte) (v : Word) :
    (s.setMask l v).gcb = s.gcb := rfl
@[simp] theorem State.setMask_slots (s : State) (l : Byte) (v : Word) :
    (s.setMask l v).slots = s.slots := rfl
@[simp] theorem State.setMask_lmask (s : State) (l : Byte) (v : Word) :
    (s.setMask l v).lmask = s.lmask.set l.toNat v := rfl
@[simp] theorem State.setMask_drops (s : State) (l : Byte) (v : Word) :
    (s.setMask l v).drops = s.drops := rfl
@[simp] theorem State.setMask_inputs (s : State) (l : Byte) (v : Word) :
    (s.setMask l v).inputs = s.inputs := rfl
@[simp] theorem State.setMask_drvIn (s : State) (l : Byte) (v : Word) :
    (s.setMask l v).drvIn = s.drvIn := rfl
@[simp] theorem State.setMask_drvDraws (s : State) (l : Byte) (v : Word) :
    (s.setMask l v).drvDraws = s.drvDraws := rfl
@[simp] theorem State.setMask_responses (s : State) (l : Byte) (v : Word) :
    (s.setMask l v).responses = s.responses := rfl
@[simp] theorem State.setMask_events (s : State) (l : Byte) (v : Word) :
    (s.setMask l v).events = s.events := rfl

@[simp] theorem State.countDrop_params (s : State) :
    s.countDrop.params = s.params := rfl
@[simp] theorem State.countDrop_mbcb (s : State) :
    s.countDrop.mbcb = s.mbcb := rfl
@[simp] theorem State.countDrop_gcb (s : State) :
    s.countDrop.gcb = s.gcb := rfl
@[simp] theorem State.countDrop_slots (s : State) :
    s.countDrop.slots = s.slots := rfl
@[simp] theorem State.countDrop_lmask (s : State) :
    s.countDrop.lmask = s.lmask := rfl
@[simp] theorem State.countDrop_drops (s : State) :
    s.countDrop.drops = s.drops + 1 := rfl
@[simp] theorem State.countDrop_inputs (s : State) :
    s.countDrop.inputs = s.inputs := rfl
@[simp] theorem State.countDrop_drvIn (s : State) :
    s.countDrop.drvIn = s.drvIn := rfl
@[simp] theorem State.countDrop_drvDraws (s : State) :
    s.countDrop.drvDraws = s.drvDraws := rfl
@[simp] theorem State.countDrop_responses (s : State) :
    s.countDrop.responses = s.responses := rfl
@[simp] theorem State.countDrop_events (s : State) :
    s.countDrop.events = s.events := rfl

@[simp] theorem State.applyReset_params (s : State) :
    s.applyReset.params = s.params := rfl
@[simp] theorem State.applyReset_mbcb (s : State) :
    s.applyReset.mbcb = List.replicate s.params.nf none := rfl
@[simp] theorem State.applyReset_gcb (s : State) :
    s.applyReset.gcb = none := rfl
@[simp] theorem State.applyReset_slots (s : State) :
    s.applyReset.slots = #v[none, none, none, none] := rfl
@[simp] theorem State.applyReset_lmask (s : State) :
    s.applyReset.lmask = List.replicate s.params.nl 0 := rfl
@[simp] theorem State.applyReset_drops (s : State) :
    s.applyReset.drops = 0 := rfl
@[simp] theorem State.applyReset_inputs (s : State) :
    s.applyReset.inputs = s.inputs := rfl
@[simp] theorem State.applyReset_drvIn (s : State) :
    s.applyReset.drvIn = s.drvIn := rfl
@[simp] theorem State.applyReset_drvDraws (s : State) :
    s.applyReset.drvDraws = s.drvDraws := rfl
@[simp] theorem State.applyReset_responses (s : State) :
    s.applyReset.responses = s.responses := rfl
@[simp] theorem State.applyReset_events (s : State) :
    s.applyReset.events = s.events := rfl

@[simp] theorem State.takeDrvStat_params (s : State) : s.takeDrvStat.params = s.params := by
  unfold State.takeDrvStat; split <;> rfl
@[simp] theorem State.takeDrvStat_mbcb (s : State) : s.takeDrvStat.mbcb = s.mbcb := by
  unfold State.takeDrvStat; split <;> rfl
@[simp] theorem State.takeDrvStat_gcb (s : State) : s.takeDrvStat.gcb = s.gcb := by
  unfold State.takeDrvStat; split <;> rfl
@[simp] theorem State.takeDrvStat_slots (s : State) : s.takeDrvStat.slots = s.slots := by
  unfold State.takeDrvStat; split <;> rfl
@[simp] theorem State.takeDrvStat_lmask (s : State) : s.takeDrvStat.lmask = s.lmask := by
  unfold State.takeDrvStat; split <;> rfl
@[simp] theorem State.takeDrvStat_drops (s : State) : s.takeDrvStat.drops = s.drops := by
  unfold State.takeDrvStat; split <;> rfl
@[simp] theorem State.takeDrvStat_inputs (s : State) : s.takeDrvStat.inputs = s.inputs := by
  unfold State.takeDrvStat; split <;> rfl
@[simp] theorem State.takeDrvStat_responses (s : State) : s.takeDrvStat.responses = s.responses := by
  unfold State.takeDrvStat; split <;> rfl
@[simp] theorem State.takeDrvStat_events (s : State) : s.takeDrvStat.events = s.events := by
  unfold State.takeDrvStat; split <;> rfl

/-- The reply taken is the word at the port, where one stands there. -/
theorem State.drvStat_cons {s : State} {d : Word} {rest : List Word} (h : s.drvIn = d :: rest) :
    s.drvStat = d ∧ s.takeDrvStat = { s with drvIn := rest } := by
  simp [State.drvStat, State.takeDrvStat, h]

/-- The reply taken is the next free value, where no word stands at the port. -/
theorem State.drvStat_nil {s : State} (h : s.drvIn = []) :
    s.drvStat = Config.drvStat s.drvDraws ∧ s.takeDrvStat = { s with drvDraws := s.drvDraws + 1 } := by
  simp [State.drvStat, State.takeDrvStat, h]

@[simp] theorem State.emit_drvStat (s : State) (es : List Event) : (s.emit es).drvStat = s.drvStat := rfl

@[simp] theorem State.watch_params (s : State) (f : Filter) : (s.watch f).params = s.params := by
  simp [State.watch]
@[simp] theorem State.watch_mbcb (s : State) (f : Filter) : (s.watch f).mbcb = s.mbcb := by
  simp [State.watch]
@[simp] theorem State.watch_gcb (s : State) (f : Filter) : (s.watch f).gcb = s.gcb := by
  simp [State.watch]
@[simp] theorem State.watch_slots (s : State) (f : Filter) : (s.watch f).slots = s.slots := by
  simp [State.watch]
@[simp] theorem State.watch_lmask (s : State) (f : Filter) : (s.watch f).lmask = s.lmask := by
  simp [State.watch]
@[simp] theorem State.watch_drops (s : State) (f : Filter) : (s.watch f).drops = s.drops := by
  simp [State.watch]
@[simp] theorem State.watch_inputs (s : State) (f : Filter) : (s.watch f).inputs = s.inputs := by
  simp [State.watch]
@[simp] theorem State.watch_drvIn (s : State) (f : Filter) : (s.watch f).drvIn = s.takeDrvStat.drvIn := by
  unfold State.watch State.takeDrvStat State.emit State.reply; cases h : s.drvIn <;> rfl
@[simp] theorem State.watch_drvDraws (s : State) (f : Filter) : (s.watch f).drvDraws = s.takeDrvStat.drvDraws := by
  unfold State.watch State.takeDrvStat State.emit State.reply; cases h : s.drvIn <;> rfl
@[simp] theorem State.watch_responses (s : State) (f : Filter) : (s.watch f).responses = s.responses ++ [⟨.ok, s.drvStat, 0, 0⟩] := by
  simp [State.watch]
@[simp] theorem State.watch_events (s : State) (f : Filter) : (s.watch f).events = s.events ++ [.fprog f] := by
  simp [State.watch]

@[simp] theorem State.setMaskBit_params (s : State) (l : Byte) (i : Nat) (b : Bool) :
    (s.setMaskBit l i b).params = s.params := rfl
@[simp] theorem State.setMaskBit_mbcb (s : State) (l : Byte) (i : Nat) (b : Bool) :
    (s.setMaskBit l i b).mbcb = s.mbcb := rfl
@[simp] theorem State.setMaskBit_gcb (s : State) (l : Byte) (i : Nat) (b : Bool) :
    (s.setMaskBit l i b).gcb = s.gcb := rfl
@[simp] theorem State.setMaskBit_slots (s : State) (l : Byte) (i : Nat) (b : Bool) :
    (s.setMaskBit l i b).slots = s.slots := rfl
@[simp] theorem State.setMaskBit_lmask (s : State) (l : Byte) (i : Nat) (b : Bool) :
    (s.setMaskBit l i b).lmask = s.lmask.set l.toNat (if b then s.maskAt l ||| BitVec.twoPow 32 i else s.maskAt l &&& ~~~BitVec.twoPow 32 i) := rfl
@[simp] theorem State.setMaskBit_drops (s : State) (l : Byte) (i : Nat) (b : Bool) :
    (s.setMaskBit l i b).drops = s.drops := rfl
@[simp] theorem State.setMaskBit_inputs (s : State) (l : Byte) (i : Nat) (b : Bool) :
    (s.setMaskBit l i b).inputs = s.inputs := rfl
@[simp] theorem State.setMaskBit_drvIn (s : State) (l : Byte) (i : Nat) (b : Bool) :
    (s.setMaskBit l i b).drvIn = s.drvIn := rfl
@[simp] theorem State.setMaskBit_drvDraws (s : State) (l : Byte) (i : Nat) (b : Bool) :
    (s.setMaskBit l i b).drvDraws = s.drvDraws := rfl
@[simp] theorem State.setMaskBit_responses (s : State) (l : Byte) (i : Nat) (b : Bool) :
    (s.setMaskBit l i b).responses = s.responses := rfl
@[simp] theorem State.setMaskBit_events (s : State) (l : Byte) (i : Nat) (b : Bool) :
    (s.setMaskBit l i b).events = s.events := rfl

end Sys2Proof.Machine
end

