-- ==== Sys2Proof/Laws/Ops.lean ====
section
/-!
SUPPORT. One lemma per shared operation that says once what it can do, and that each operation keeps the shape of the
state (`State.Inv`).
-/

namespace Sys2Proof.Machine

/-! ### The slots -/

/-- Searching the slots in ascending order finds the lowest one that answers. -/
theorem slotIndices_find?_eq_some {p : Fin 4 → Bool} {i : Fin 4} :
    slotIndices.find? p = some i ↔ p i = true ∧ ∀ j : Fin 4, j < i → p j = false := by
  unfold slotIndices
  cases h0 : p 0 <;> cases h1 : p 1 <;> cases h2 : p 2 <;> cases h3 : p 3 <;>
    fin_cases i <;> simp [List.find?, Fin.forall_fin_succ, h0, h1, h2, h3]

/-- Searching the slots finds none. -/
theorem slotIndices_find?_eq_none {p : Fin 4 → Bool} :
    slotIndices.find? p = none ↔ ∀ i : Fin 4, p i = false := by
  simp [slotIndices, List.find?_eq_none, Fin.forall_fin_succ]

theorem isNone_eq_false {α : Type} {o : Option α} : o.isNone = false ↔ o ≠ none := by
  cases o <;> simp

/-- The lowest free slot (R134). -/
theorem State.firstFree_eq_some {s : State} {i : Fin 4} :
    s.firstFree = some i ↔ s.slots[i] = none ∧ ∀ j : Fin 4, j < i → s.slots[j] ≠ none := by
  rw [State.firstFree, slotIndices_find?_eq_some]
  simp only [Option.isNone_iff_eq_none, isNone_eq_false]

/-- No slot is free. -/
theorem State.firstFree_eq_none {s : State} : s.firstFree = none ↔ ∀ i : Fin 4, s.slots[i] ≠ none := by
  rw [State.firstFree, slotIndices_find?_eq_none]
  simp only [isNone_eq_false]

/-- The lowest slot that holds the handle (R132). -/
theorem State.firstHolding_eq_some {s : State} {l : Byte} {i : Fin 4} :
    s.firstHolding l = some i ↔ s.slots[i] = some l ∧ ∀ j : Fin 4, j < i → s.slots[j] ≠ some l := by
  rw [State.firstHolding, slotIndices_find?_eq_some]
  simp

/-- No slot holds the handle. -/
theorem State.firstHolding_eq_none {s : State} {l : Byte} :
    s.firstHolding l = none ↔ ∀ i : Fin 4, s.slots[i] ≠ some l := by
  rw [State.firstHolding, slotIndices_find?_eq_none]
  simp

/-- A slot after a write of one slot. -/
theorem State.setSlot_getElem (s : State) (i j : Fin 4) (v : Option Byte) :
    (s.setSlot i v).slots[j] = if j = i then v else s.slots[j] := by
  simp only [State.setSlot, Fin.getElem_fin, Vector.getElem_set, Fin.ext_iff]
  split <;> simp_all [eq_comm]

/-- The slots as a list, in ascending order. -/
theorem slots_toList (v : Vector (Option Byte) 4) : v.toList = [v[0], v[1], v[2], v[3]] := by
  obtain ⟨⟨l⟩, h⟩ := v
  match l, h with
  | [_, _, _, _], _ => rfl

/-- Membership in the list of slots. -/
theorem mem_slots {s : State} {o : Option Byte} : o ∈ s.slots.toList ↔ ∃ i : Fin 4, s.slots[i] = o := by
  rw [slots_toList]; simp [Fin.exists_fin_succ, eq_comm]

/-- A handle is attached when some slot holds it (R30). -/
theorem State.isAttached_iff {s : State} {l : Byte} : s.isAttached l = true ↔ some l ∈ s.slots.toList := by
  simp [State.isAttached]

/-- How a write of one slot changes a count over the slots. -/
theorem countP_setSlot (p : Option Byte → Bool) (s : State) (k : Fin 4) (v : Option Byte) :
    (s.setSlot k v).slots.toList.countP p + (if p s.slots[k] then 1 else 0) =
      s.slots.toList.countP p + (if p v then 1 else 0) := by
  have h (j : Fin 4) := State.setSlot_getElem s k j v
  have h0 := h 0; have h1 := h 1; have h2 := h 2; have h3 := h 3
  simp only [Fin.getElem_fin, Fin.val_zero, Fin.val_one, Fin.val_two, show ((3 : Fin 4) : Nat) = 3 from rfl] at h0 h1 h2 h3
  rw [slots_toList, slots_toList, h0, h1, h2, h3]
  fin_cases k <;> simp [List.countP_cons] <;> omega

/-! ### The tables reached by index -/

/-- A mailbox entry after a write of one entry. -/
theorem State.setMbcbAt_mbcbAt (s : State) (m n : Byte) (v : Option Word) (hm : m.toNat < s.mbcb.length) :
    (s.setMbcbAt m v).mbcbAt n = if n = m then v else s.mbcbAt n := by
  unfold State.mbcbAt State.setMbcbAt
  by_cases h : n = m
  · subst h; simp [List.getD, hm]
  · have hn : m.toNat ≠ n.toNat := fun e => h (BitVec.eq_of_toNat_eq e.symm)
    simp [List.getD, h, hn]

/-- A mask after a write of one mask. -/
theorem State.setMask_maskAt (s : State) (l k : Byte) (v : Word) (hl : l.toNat < s.lmask.length) :
    (s.setMask l v).maskAt k = if k = l then v else s.maskAt k := by
  unfold State.maskAt State.setMask
  by_cases h : k = l
  · subst h; simp [List.getD, hl]
  · have hn : l.toNat ≠ k.toNat := fun e => h (BitVec.eq_of_toNat_eq e.symm)
    simp [List.getD, h, hn]

/-- Every mask bit after a write of one bit (R151 to R154). -/
theorem State.setMaskBit_maskBit (s : State) (l k : Byte) (i j : Nat) (b : Bool) (hl : l.toNat < s.lmask.length)
    (hi : i < 32) :
    (s.setMaskBit l i b).maskBit k j = if k = l ∧ j = i then b else s.maskBit k j := by
  unfold State.maskBit State.setMaskBit
  rw [State.setMask_maskAt s l k _ hl]
  by_cases h : k = l
  · subst h
    by_cases hj : j = i
    · subst hj; cases b <;> simp [hi]
    · cases b <;> simp [hj, BitVec.getLsbD_twoPow, Ne.symm hj]
      intro h'; exact BitVec.lt_of_getLsbD h'
  · simp [h]

/-! ### Errors -/

theorem raiseError_eq (st : Status) (s : State) : raiseError st s = .next (s.reply st 0 0 0) := rfl

theorem raiseIllegal_eq (c : IllegalCase) (s : State) :
    raiseIllegal c s = .fault (.illegal c (s.reply .illegal 0 0 0)) := rfl

/-! ### Every operation keeps the shape of the state -/

/-- The shape depends on the parameters and the tables only. -/
theorem State.Inv.of_eq {s t : State} (h : s.Inv) (h1 : t.params = s.params) (h2 : t.mbcb = s.mbcb)
    (h3 : t.lmask = s.lmask) (h4 : t.slots = s.slots) : t.Inv := by
  unfold State.Inv at *
  rw [h1, h2, h3, h4]; exact h

theorem State.Inv.reply {s : State} (h : s.Inv) (st : Status) (r0 r1 r2 : Word) : (s.reply st r0 r1 r2).Inv :=
  h.of_eq rfl rfl rfl rfl

theorem State.Inv.emit {s : State} (h : s.Inv) (es : List Event) : (s.emit es).Inv := h.of_eq rfl rfl rfl rfl

theorem State.Inv.setGcb {s : State} (h : s.Inv) (w : Word) : (s.setGcb w).Inv := h.of_eq rfl rfl rfl rfl

theorem State.Inv.countDrop {s : State} (h : s.Inv) : s.countDrop.Inv := h.of_eq rfl rfl rfl rfl

theorem State.Inv.watch {s : State} (h : s.Inv) (f : Filter) : (s.watch f).Inv :=
  h.of_eq (by simp) (by simp) (by simp) (by simp)

theorem State.Inv.setMbcbAt {s : State} (h : s.Inv) (m : Byte) (v : Option Word) : (s.setMbcbAt m v).Inv := by
  obtain ⟨h1, h2, h3, h4, h5⟩ := h
  exact ⟨h1, by simpa using h2, h3, h4, h5⟩

theorem State.Inv.setSlot {s : State} (h : s.Inv) (i : Fin 4) (v : Option Byte)
    (hv : ∀ l, v = some l → l.toNat < s.params.nl) : (s.setSlot i v).Inv := by
  obtain ⟨h1, h2, h3, h4, h5⟩ := h
  refine ⟨h1, h2, h3, h4, ?_⟩
  simp only [List.all_eq_true, Option.all_eq_true, decide_eq_true_eq, State.setSlot_slots,
    State.setSlot_params] at h5 ⊢
  intro o ho l hl
  rw [Vector.toList_set] at ho
  rcases List.mem_or_eq_of_mem_set ho with ho | ho
  · exact decide_eq_true (h5 o ho l hl)
  · exact decide_eq_true (hv l (ho ▸ hl))

theorem State.Inv.setMask {s : State} (h : s.Inv) (l : Byte) (v : Word) (hv : v.toNat < 2 ^ (s.params.nf + 1)) :
    (s.setMask l v).Inv := by
  obtain ⟨h1, h2, h3, h4, h5⟩ := h
  refine ⟨h1, h2, by simpa using h3, ?_, h5⟩
  simp only [List.all_eq_true, decide_eq_true_eq, State.setMask_lmask, State.setMask_params] at h4 ⊢
  intro w hw
  rcases List.mem_or_eq_of_mem_set hw with hw | hw
  · exact decide_eq_true (h4 w hw)
  · exact decide_eq_true (hw ▸ hv)

/-- No mask has a bit above NF (R32). -/
theorem State.Inv.maskAt_lt {s : State} (h : s.Inv) (l : Byte) : (s.maskAt l).toNat < 2 ^ (s.params.nf + 1) := by
  obtain ⟨-, -, -, h4, -⟩ := h
  simp only [List.all_eq_true, decide_eq_true_eq] at h4
  unfold State.maskAt
  by_cases hl : l.toNat < s.lmask.length
  · simpa [List.getD, hl] using h4 _ (List.getElem_mem hl)
  · simp [List.getD, hl]

theorem State.Inv.setMaskBit {s : State} (h : s.Inv) (l : Byte) (i : Nat) (b : Bool) (hi : i ≤ s.params.nf) :
    (s.setMaskBit l i b).Inv := by
  refine h.setMask l _ ?_
  have hm := h.maskAt_lt l
  have hnf : s.params.nf ≤ 31 := h.1.2.1
  cases b
  · simp only [Bool.false_eq_true, if_false, BitVec.toNat_and]
    exact Nat.lt_of_le_of_lt Nat.and_le_left hm
  · simp only [if_true, BitVec.toNat_or]
    refine Nat.or_lt_two_pow hm ?_
    rw [BitVec.toNat_twoPow]
    have : (2 : Nat) ^ i < 2 ^ (s.params.nf + 1) := Nat.pow_lt_pow_right (by decide) (by omega)
    exact Nat.lt_of_le_of_lt (Nat.mod_le _ _) this

theorem State.Inv.applyReset {s : State} (h : s.Inv) : s.applyReset.Inv := by
  refine ⟨h.1, by simp, by simp, ?_, by simp⟩
  simp

end Sys2Proof.Machine
end

