-- ==== Sys2Proof/Laws/Step.lean ====
section
/-!
SUPPORT. What a step can do, said once, and which meaning each command runs.
-/

namespace Sys2Proof.Machine

/-- The five things a step can do. -/
theorem step_cases (s : State) :
    (fetch s.inputs = .idle ∧ step s = .next s) ∨
    (∃ rest, fetch s.inputs = .reset rest ∧ step s = .next { s.applyReset with inputs := rest }) ∨
    (∃ i rest, fetch s.inputs = .command i rest ∧ step s = exec i { s with inputs := rest }) ∨
    (∃ c rest, fetch s.inputs = .illegal c rest ∧ step s = raiseIllegal c { s with inputs := rest }) ∨
    (fetch s.inputs = .resetDuringCommand ∧ step s = .refused .resetDuringCommand) := by
  cases h : fetch s.inputs <;> simp [step, h]

/-- A packet of words stands at the command port as those words. -/
theorem leadingWords_asInputs (ws : List Word) (rest : List Input) :
    leadingWords (asInputs ws ++ rest) = ws ++ leadingWords rest := by
  induction ws with
  | nil => rfl
  | cons w ws ih => simpa [asInputs, leadingWords] using ih

@[simp] theorem asInputs_length (ws : List Word) : (asInputs ws).length = ws.length := by simp [asInputs]

/-- Fetching a stream that begins with a word: the decoder reads the words before the next reset. -/
theorem fetch_word (w : Word) (rest : List Input) :
    fetch (.word w :: rest) =
      match decode (leadingWords (.word w :: rest)) with
      | .instr i n => .command i ((Input.word w :: rest).drop n)
      | .illegal c n => .illegal c ((Input.word w :: rest).drop n)
      | .incomplete => if (Input.word w :: rest).contains .reset then .resetDuringCommand else .idle := rfl

/-- Fetching a stream that begins with the words `ws`. -/
theorem fetch_asInputs {ws : List Word} {rest : List Input} (h : ws ≠ []) :
    fetch (asInputs ws ++ rest) =
      match decode (ws ++ leadingWords rest) with
      | .instr i n => .command i ((asInputs ws ++ rest).drop n)
      | .illegal c n => .illegal c ((asInputs ws ++ rest).drop n)
      | .incomplete => if (asInputs ws ++ rest).contains .reset then .resetDuringCommand else .idle := by
  cases ws with
  | nil => exact absurd rfl h
  | cons w ws =>
    have hw := leadingWords_asInputs (w :: ws) rest
    simp only [asInputs, List.map_cons, List.cons_append] at hw ⊢
    rw [fetch_word, hw]

@[simp] theorem fetch_nil : fetch [] = .idle := rfl

@[simp] theorem fetch_reset (rest : List Input) : fetch (.reset :: rest) = .reset rest := rfl

end Sys2Proof.Machine
end

