-- ==== Sys2Proof/Laws/Exec.lean ====
section
/-!
SUPPORT. What a command can do, said once: the state the hardware answers in has one of a few forms. Every invariant of a
command is a case analysis over these forms.
-/

namespace Sys2Proof.Machine

/-- The forms of the state after a command that the hardware has answered. A reply alone is the form of the SYN commands,
IS.EN, RD.DROP, the source errors and Illegal; a reply that is not OK has zero result words. -/
theorem exec_answered_cases {i : Instr} {s t : State} (h : answered (exec i s) = some t) :
    (∃ st r0 r1 r2, t = s.reply st r0 r1 r2 ∧ (st ≠ .ok → r0 = 0 ∧ r1 = 0 ∧ r2 = 0)) ∨
    (∃ f, t = s.watch f ∧ (i.op = .watchAll ∨ i.op = .watchId ∨ i.op = .watchIdm ∨ i.op = .watchRng)) ∨
    (∃ m v, s.isMailbox m = true ∧ t = (s.setMbcbAt m v).replyOk ∧ (i.op = .setMbcb ∨ i.op = .clrMbcb)) ∨
    (∃ w, i = .setGcb w ∧ t = (s.setGcb w).replyOk) ∨
    (∃ l k, i = .attach l ∧ s.isListener l = true ∧ s.firstFree = some k ∧
      t = ((s.setSlot k (some l)).setMask l 0).replyOk) ∨
    (∃ l k, i = .detach l ∧ s.isListener l = true ∧ s.firstHolding l = some k ∧ t = (s.setSlot k none).replyOk) ∨
    (∃ l j b, s.isListener l = true ∧ j ≤ s.params.nf ∧ t = (s.setMaskBit l j b).replyOk ∧
      (i.op = .enMb ∨ i.op = .disMb ∨ i.op = .enGen ∨ i.op = .disGen)) ∨
    (∃ m f, i = .dispatch m f ∧ deliveries s m f = [] ∧ t = s.countDrop.reply .ok 0 0 0) ∨
    (∃ m f, i = .dispatch m f ∧ deliveries s m f ≠ [] ∧
      t = (s.emit (deliveries s m f)).reply .ok (BitVec.ofNat 32 (deliveries s m f).length) 0 0) := by
  have hmb {m : Byte} (hm : s.isMailbox m = true) : m.toNat ≤ s.params.nf :=
    Nat.le_of_lt (of_decide_eq_true hm)
  cases i with
  | synId a => cases h; exact .inl ⟨_, _, _, _, rfl, fun h => absurd rfl h⟩
  | synIdm a b => cases h; exact .inl ⟨_, _, _, _, rfl, fun h => absurd rfl h⟩
  | synRng a b => cases h; exact .inl ⟨_, _, _, _, rfl, fun h => absurd rfl h⟩
  | watchAll => cases h; exact .inr (.inl ⟨_, rfl, by decide⟩)
  | watchId a => cases h; exact .inr (.inl ⟨_, rfl, .inr (.inl rfl)⟩)
  | watchIdm a b => cases h; exact .inr (.inl ⟨_, rfl, .inr (.inr (.inl rfl))⟩)
  | watchRng a b => cases h; exact .inr (.inl ⟨_, rfl, .inr (.inr (.inr rfl))⟩)
  | setMbcb m w =>
    simp only [exec, execSetMbcb, raiseError] at h
    split at h <;> cases h
    · rename_i hm; exact .inr (.inr (.inl ⟨_, _, hm, rfl, .inl rfl⟩))
    · exact .inl ⟨_, _, _, _, rfl, fun _ => ⟨rfl, rfl, rfl⟩⟩
  | clrMbcb m =>
    simp only [exec, execClrMbcb, raiseError] at h
    split at h <;> cases h
    · rename_i hm; exact .inr (.inr (.inl ⟨_, _, hm, rfl, .inr rfl⟩))
    · exact .inl ⟨_, _, _, _, rfl, fun _ => ⟨rfl, rfl, rfl⟩⟩
  | setGcb w => cases h; exact .inr (.inr (.inr (.inl ⟨_, rfl, rfl⟩)))
  | attach l =>
    simp only [exec, execAttach, raiseError, raiseIllegal] at h
    split at h
    · split at h <;> cases h
      · exact .inl ⟨_, _, _, _, rfl, fun _ => ⟨rfl, rfl, rfl⟩⟩
      · rename_i hl _ k hk; exact .inr (.inr (.inr (.inr (.inl ⟨_, k, rfl, hl, hk, rfl⟩))))
    · cases h; exact .inl ⟨_, _, _, _, rfl, fun _ => ⟨rfl, rfl, rfl⟩⟩
  | detach l =>
    simp only [exec, execDetach, raiseError, raiseIllegal] at h
    split at h
    · split at h <;> cases h
      · exact .inl ⟨_, _, _, _, rfl, fun _ => ⟨rfl, rfl, rfl⟩⟩
      · rename_i hl _ k hk; exact .inr (.inr (.inr (.inr (.inr (.inl ⟨_, k, rfl, hl, hk, rfl⟩)))))
    · cases h; exact .inl ⟨_, _, _, _, rfl, fun _ => ⟨rfl, rfl, rfl⟩⟩
  | enMb l m =>
    simp only [exec, execEnMb, writeMailboxBit, raiseError, raiseIllegal] at h
    split at h
    · split at h <;> cases h
      · rename_i hl hm
        exact .inr (.inr (.inr (.inr (.inr (.inr (.inl ⟨l, _, _, hl, hmb hm, rfl, .inl rfl⟩))))))
      · exact .inl ⟨_, _, _, _, rfl, fun _ => ⟨rfl, rfl, rfl⟩⟩
    · cases h; exact .inl ⟨_, _, _, _, rfl, fun _ => ⟨rfl, rfl, rfl⟩⟩
  | disMb l m =>
    simp only [exec, execDisMb, writeMailboxBit, raiseError, raiseIllegal] at h
    split at h
    · split at h <;> cases h
      · rename_i hl hm
        exact .inr (.inr (.inr (.inr (.inr (.inr (.inl ⟨l, _, _, hl, hmb hm, rfl, .inr (.inl rfl)⟩))))))
      · exact .inl ⟨_, _, _, _, rfl, fun _ => ⟨rfl, rfl, rfl⟩⟩
    · cases h; exact .inl ⟨_, _, _, _, rfl, fun _ => ⟨rfl, rfl, rfl⟩⟩
  | enGen l =>
    simp only [exec, execEnGen, writeGeneralBit, raiseIllegal] at h
    split at h <;> cases h
    · rename_i hl
      exact .inr (.inr (.inr (.inr (.inr (.inr (.inl ⟨l, _, _, hl, Nat.le_refl _, rfl, .inr (.inr (.inl rfl))⟩))))))
    · exact .inl ⟨_, _, _, _, rfl, fun _ => ⟨rfl, rfl, rfl⟩⟩
  | disGen l =>
    simp only [exec, execDisGen, writeGeneralBit, raiseIllegal] at h
    split at h <;> cases h
    · rename_i hl
      exact .inr (.inr (.inr (.inr (.inr (.inr (.inl ⟨l, _, _, hl, Nat.le_refl _, rfl, .inr (.inr (.inr rfl))⟩))))))
    · exact .inl ⟨_, _, _, _, rfl, fun _ => ⟨rfl, rfl, rfl⟩⟩
  | isEn l j =>
    simp only [exec, execIsEn, raiseIllegal] at h
    split at h
    · split at h <;> cases h
      · exact .inl ⟨_, _, _, _, rfl, fun h => absurd rfl h⟩
      · exact .inl ⟨_, _, _, _, rfl, fun _ => ⟨rfl, rfl, rfl⟩⟩
    · cases h; exact .inl ⟨_, _, _, _, rfl, fun _ => ⟨rfl, rfl, rfl⟩⟩
  | dispatch m f =>
    simp only [exec, execDispatch, raiseIllegal] at h
    split at h
    · cases h
      by_cases he : deliveries s m f = []
      · exact .inr (.inr (.inr (.inr (.inr (.inr (.inr (.inl ⟨m, f, rfl, he, by simp [he]⟩)))))))
      · exact .inr (.inr (.inr (.inr (.inr (.inr (.inr (.inr ⟨m, f, rfl, he, by simp [he]⟩)))))))
    · cases h; exact .inl ⟨_, _, _, _, rfl, fun _ => ⟨rfl, rfl, rfl⟩⟩
  | rdDrop => cases h; exact .inl ⟨_, _, _, _, rfl, fun h => absurd rfl h⟩

/-- A command always gets an answer: no meaning refuses. -/
theorem exec_answered (i : Instr) (s : State) : ∃ t, answered (exec i s) = some t := by
  cases i <;> simp only [exec, execSetMbcb, execClrMbcb, execAttach, execDetach, execEnMb, execDisMb, execEnGen, execDisGen,
    execIsEn, execDispatch, writeMailboxBit, writeGeneralBit, raiseError, raiseIllegal]
  all_goals (repeat' split)
  all_goals exact ⟨_, rfl⟩

/-- A next state is an answered state. -/
theorem answered_of_next {o : Outcome} {t : State} (h : o = .next t) : answered o = some t := h ▸ rfl

/-! ### The branches of each conditional meaning -/

theorem State.isMailbox_iff {s : State} {m : Byte} : s.isMailbox m = true ↔ m.toNat < s.params.nf := decide_eq_true_iff

theorem State.isMaskBit_iff {s : State} {i : Byte} : s.isMaskBit i = true ↔ i.toNat ≤ s.params.nf := decide_eq_true_iff

theorem State.isListener_iff {s : State} {l : Byte} : s.isListener l = true ↔ l.toNat < s.params.nl := decide_eq_true_iff

theorem State.not_isMailbox_iff {s : State} {m : Byte} : ¬s.isMailbox m = true ↔ s.params.nf ≤ m.toNat := by
  rw [State.isMailbox_iff, Nat.not_lt]

theorem State.not_isMaskBit_iff {s : State} {i : Byte} : ¬s.isMaskBit i = true ↔ s.params.nf < i.toNat := by
  rw [State.isMaskBit_iff, Nat.not_le]

theorem State.not_isListener_iff {s : State} {l : Byte} : ¬s.isListener l = true ↔ s.params.nl ≤ l.toNat := by
  rw [State.isListener_iff, Nat.not_lt]

theorem exec_setMbcb_in {s : State} {m : Byte} (w : Word) (h : m.toNat < s.params.nf) :
    exec (.setMbcb m w) s = .next (s.setMbcbAt m (some w)).replyOk := if_pos (State.isMailbox_iff.2 h)

theorem exec_setMbcb_out {s : State} {m : Byte} (w : Word) (h : s.params.nf ≤ m.toNat) :
    exec (.setMbcb m w) s = .next (s.reply .invalidMailbox 0 0 0) := if_neg (State.not_isMailbox_iff.2 h)

theorem exec_clrMbcb_in {s : State} {m : Byte} (h : m.toNat < s.params.nf) :
    exec (.clrMbcb m) s = .next (s.setMbcbAt m none).replyOk := if_pos (State.isMailbox_iff.2 h)

theorem exec_clrMbcb_out {s : State} {m : Byte} (h : s.params.nf ≤ m.toNat) :
    exec (.clrMbcb m) s = .next (s.reply .invalidMailbox 0 0 0) := if_neg (State.not_isMailbox_iff.2 h)

theorem exec_attach_free {s : State} {l : Byte} {k : Fin 4} (h : l.toNat < s.params.nl) (hk : s.firstFree = some k) :
    exec (.attach l) s = .next ((s.setSlot k (some l)).setMask l 0).replyOk := by
  simp only [exec, execAttach, if_pos (State.isListener_iff.2 h), hk]

theorem exec_attach_full {s : State} {l : Byte} (h : l.toNat < s.params.nl) (hk : s.firstFree = none) :
    exec (.attach l) s = .next (s.reply .registryFull 0 0 0) := by
  simp only [exec, execAttach, if_pos (State.isListener_iff.2 h), hk, raiseError]

theorem exec_attach_out {s : State} {l : Byte} (h : s.params.nl ≤ l.toNat) :
    exec (.attach l) s = raiseIllegal .unknownListener s := if_neg (State.not_isListener_iff.2 h)

theorem exec_detach_found {s : State} {l : Byte} {k : Fin 4} (h : l.toNat < s.params.nl)
    (hk : s.firstHolding l = some k) : exec (.detach l) s = .next (s.setSlot k none).replyOk := by
  simp only [exec, execDetach, if_pos (State.isListener_iff.2 h), hk]

theorem exec_detach_notFound {s : State} {l : Byte} (h : l.toNat < s.params.nl) (hk : s.firstHolding l = none) :
    exec (.detach l) s = .next (s.reply .notFound 0 0 0) := by
  simp only [exec, execDetach, if_pos (State.isListener_iff.2 h), hk, raiseError]

theorem exec_detach_out {s : State} {l : Byte} (h : s.params.nl ≤ l.toNat) :
    exec (.detach l) s = raiseIllegal .unknownListener s := if_neg (State.not_isListener_iff.2 h)

theorem writeMailboxBit_in {s : State} {l m : Byte} (b : Bool) (h : l.toNat < s.params.nl) (hm : m.toNat < s.params.nf) :
    writeMailboxBit b l m s = .next (s.setMaskBit l m.toNat b).replyOk := by
  rw [writeMailboxBit, if_pos (State.isListener_iff.2 h), if_pos (State.isMailbox_iff.2 hm)]

theorem writeMailboxBit_badMailbox {s : State} {l m : Byte} (b : Bool) (h : l.toNat < s.params.nl)
    (hm : s.params.nf ≤ m.toNat) : writeMailboxBit b l m s = .next (s.reply .invalidMailbox 0 0 0) := by
  rw [writeMailboxBit, if_pos (State.isListener_iff.2 h), if_neg (State.not_isMailbox_iff.2 hm), raiseError]

theorem writeMailboxBit_out {s : State} {l : Byte} (b : Bool) (m : Byte) (h : s.params.nl ≤ l.toNat) :
    writeMailboxBit b l m s = raiseIllegal .unknownListener s := if_neg (State.not_isListener_iff.2 h)

theorem writeGeneralBit_in {s : State} {l : Byte} (b : Bool) (h : l.toNat < s.params.nl) :
    writeGeneralBit b l s = .next (s.setMaskBit l s.params.nf b).replyOk := if_pos (State.isListener_iff.2 h)

theorem writeGeneralBit_out {s : State} {l : Byte} (b : Bool) (h : s.params.nl ≤ l.toNat) :
    writeGeneralBit b l s = raiseIllegal .unknownListener s := if_neg (State.not_isListener_iff.2 h)

theorem exec_isEn_in {s : State} {l i : Byte} (h : l.toNat < s.params.nl) (hi : i.toNat ≤ s.params.nf) :
    exec (.isEn l i) s = .next (s.reply .ok (boolWord (s.maskBit l i.toNat)) 0 0) := by
  simp only [exec, execIsEn, if_pos (State.isListener_iff.2 h), if_pos (State.isMaskBit_iff.2 hi)]

theorem exec_isEn_badBit {s : State} {l i : Byte} (h : l.toNat < s.params.nl) (hi : s.params.nf < i.toNat) :
    exec (.isEn l i) s = raiseIllegal .outOfDomain s := by
  simp only [exec, execIsEn, if_pos (State.isListener_iff.2 h), if_neg (State.not_isMaskBit_iff.2 hi)]

theorem exec_isEn_out {s : State} {l : Byte} (i : Byte) (h : s.params.nl ≤ l.toNat) :
    exec (.isEn l i) s = raiseIllegal .unknownListener s := if_neg (State.not_isListener_iff.2 h)

theorem exec_dispatch_in {s : State} {m : Byte} (f : Frame) (h : m.toNat < s.params.nf) :
    exec (.dispatch m f) s =
      .next ((if (deliveries s m f).isEmpty then s.countDrop else s.emit (deliveries s m f)).reply .ok
        (BitVec.ofNat 32 (deliveries s m f).length) 0 0) := if_pos (State.isMailbox_iff.2 h)

theorem exec_dispatch_out {s : State} {m : Byte} (f : Frame) (h : s.params.nf ≤ m.toNat) :
    exec (.dispatch m f) s = raiseIllegal .outOfDomain s := if_neg (State.not_isMailbox_iff.2 h)

end Sys2Proof.Machine
end

