-- ==== Sys2Proof/Laws/Filter.lean ====
section
/-!
SUPPORT. The small lemmas of the synthesizer's arithmetic: the top bit of a word, low masks, unsigned bounds.
-/

namespace Sys2Proof.Machine

theorem lowmask_getLsbD (n i : Nat) (hn : n ≤ 32) : (lowmask n).getLsbD i = decide (i < n) := by
  unfold lowmask
  rw [BitVec.getLsbD_ofNat, Nat.testBit_two_pow_sub_one]
  by_cases h : i < n
  · simp [h, Nat.lt_of_lt_of_le h hn]
  · simp [h]

/-- The top bit of a nonzero word is set, lies below 32, and no higher bit is set (00_scope.md R12). -/
theorem topBit_spec {v : Word} (hv : v ≠ 0) :
    topBit v < 32 ∧ v.getLsbD (topBit v) = true ∧ ∀ j, topBit v < j → v.getLsbD j = false := by
  have h0 : v.toNat ≠ 0 := fun e => hv (BitVec.eq_of_toNat_eq (by simpa using e))
  refine ⟨?_, ?_, ?_⟩
  · exact (Nat.log2_lt h0).2 v.isLt
  · exact Nat.testBit_log2 h0
  · intro j hj
    rw [← BitVec.testBit_toNat]
    exact Nat.testBit_lt_two_pow ((Nat.log2_lt h0).1 hj)

theorem minWord_le_maxWord (a b : Word) : minWord a b ≤ maxWord a b := by
  unfold minWord maxWord
  split
  · assumption
  · rename_i h; exact BitVec.le_of_lt (BitVec.not_le.1 h)

/-- The bounds are the two operands, in one order or the other. -/
theorem minWord_maxWord_cases (a b : Word) :
    (minWord a b = a ∧ maxWord a b = b) ∨ (minWord a b = b ∧ maxWord a b = a) := by
  unfold minWord maxWord
  split
  · exact .inl ⟨rfl, rfl⟩
  · exact .inr ⟨rfl, rfl⟩

theorem minWord_comm (a b : Word) : minWord a b = minWord b a := by
  unfold minWord; split <;> split <;> bv_omega

theorem maxWord_comm (a b : Word) : maxWord a b = maxWord b a := by
  unfold maxWord; split <;> split <;> bv_omega

/-- The identifiers the scan visits are those of the range (R105, R107). -/
theorem mem_scanRange {lo hi c : Word} (h : lo ≤ hi) : c ∈ scanRange lo hi ↔ lo ≤ c ∧ c ≤ hi := by
  unfold scanRange
  simp only [List.mem_map, List.mem_range, BitVec.le_def] at *
  constructor
  · rintro ⟨k, hk, rfl⟩
    have := hi.isLt
    rw [BitVec.toNat_ofNat, Nat.mod_eq_of_lt (by omega)]
    omega
  · rintro ⟨h1, h2⟩
    refine ⟨c.toNat - lo.toNat, by omega, ?_⟩
    rw [Nat.add_sub_cancel' h1]; simp

/-- What the scan leaves in each bit of its two accumulators. -/
theorem foldl_scanVisit_getLsbD (lo : Word) (cs : List Word) (i m : Word) (j : Nat) (hj : j < 32) :
    ((cs.foldl (scanVisit lo) (i, m)).1.getLsbD j = true ↔ i.getLsbD j = true ∧ ∀ c ∈ cs, c.getLsbD j = true) ∧
    ((cs.foldl (scanVisit lo) (i, m)).2.getLsbD j = true ↔
      m.getLsbD j = true ∧ ∀ c ∈ cs, c.getLsbD j = lo.getLsbD j) := by
  induction cs generalizing i m with
  | nil => simp
  | cons c cs ih =>
    rw [List.foldl_cons]
    obtain ⟨h1, h2⟩ := ih (i &&& c) (m &&& ~~~(lo ^^^ c))
    constructor
    · rw [scanVisit, h1]; simp [and_assoc]
    · rw [scanVisit, h2]; simp [and_assoc, hj]
      intro _ _
      exact eq_comm

end Sys2Proof.Machine
end

