-- ==== Sys2Proof/Laws/PerInstr.lean ====
section
/-!
SUPPORT. Statements made once per command, as syntax. The family EncodeRow: the packet of a command is as long as its
format says (30_encoding.md R72, R73), and its header word lies in the command's own row of R76.
-/

namespace Sys2Proof.Laws

/-- The packet of `i` has the length of its row's format, and its header satisfies `(CW & mask) == match` for the row. -/
def EncodeRow.Statement (i : Instr) : Prop :=
  (encode i).length = i.op.format.words ∧ (encode i).headD 0 &&& i.op.mask = i.op.pattern

/-- A header with 0 in the fields its row does not use lies in the row (R76). -/
theorem headerWord_in_row (o : Op) (l x : Byte) (hl : o.usesLid = false → l = 0) (hx : o.usesIdx = false → x = 0) :
    headerWord o l x &&& o.mask = o.pattern := by
  apply BitVec.eq_of_getLsbD_eq
  intro k hk
  rw [BitVec.getLsbD_and, headerWord_getLsbD]
  by_cases h1 : k < 8
  · rw [if_pos h1]
    clear hl hx
    revert k
    cases o <;> decide
  by_cases h2 : k - 8 < 8
  · rw [if_neg h1, if_pos h2]
    have key : ∀ k : Fin 32, ¬ k.val < 8 → k.val - 8 < 8 → o.mask.getLsbD k = !o.usesIdx ∧ o.pattern.getLsbD k = false := by
      clear hl hx; cases o <;> decide
    obtain ⟨ha, hb⟩ := key ⟨k, hk⟩ h1 h2
    simp only [ha, hb] at *
    cases hu : o.usesIdx
    · simp [hx hu]
    · simp
  by_cases h3 : k - 8 - 8 < 8
  · rw [if_neg h1, if_neg h2, if_pos h3]
    have key : ∀ k : Fin 32, ¬ k.val < 8 → ¬ k.val - 8 < 8 → k.val - 8 - 8 < 8 →
        o.mask.getLsbD k = !o.usesLid ∧ o.pattern.getLsbD k = false := by
      clear hl hx; cases o <;> decide
    obtain ⟨ha, hb⟩ := key ⟨k, hk⟩ h1 h2 h3
    simp only [ha, hb] at *
    cases hu : o.usesLid
    · simp [hl hu]
    · simp
  · rw [if_neg h1, if_neg h2, if_neg h3]
    have key : ∀ k : Fin 32, ¬ k.val < 8 → ¬ k.val - 8 < 8 → ¬ k.val - 8 - 8 < 8 → o.pattern.getLsbD k = false := by
      clear hl hx; cases o <;> decide
    rw [key ⟨k, hk⟩ h1 h2 h3, Bool.false_and]

/-- The two halves of the statement, from the shape of the packet. -/
theorem encodeRow_of_header {i : Instr} {o : Op} {l x : Byte} {ws : List Word}
    (he : encode i = headerWord o l x :: ws) (ho : i.op = o) (hl : o.usesLid = false → l = 0)
    (hx : o.usesIdx = false → x = 0) : EncodeRow.Statement i := by
  refine ⟨encode_length i, ?_⟩
  rw [he, ho]
  exact headerWord_in_row o l x hl hx

theorem EncodeRow.synId (id : Word) : EncodeRow.Statement (.synId id) :=
  encodeRow_of_header rfl rfl (fun _ => rfl) (fun _ => rfl)

theorem EncodeRow.synIdm (id mask : Word) : EncodeRow.Statement (.synIdm id mask) :=
  encodeRow_of_header rfl rfl (fun _ => rfl) (fun _ => rfl)

theorem EncodeRow.synRng (a b : Word) : EncodeRow.Statement (.synRng a b) :=
  encodeRow_of_header rfl rfl (fun _ => rfl) (fun _ => rfl)

theorem EncodeRow.watchAll : EncodeRow.Statement .watchAll :=
  encodeRow_of_header rfl rfl (fun _ => rfl) (fun _ => rfl)

theorem EncodeRow.watchId (id : Word) : EncodeRow.Statement (.watchId id) :=
  encodeRow_of_header rfl rfl (fun _ => rfl) (fun _ => rfl)

theorem EncodeRow.watchIdm (id mask : Word) : EncodeRow.Statement (.watchIdm id mask) :=
  encodeRow_of_header rfl rfl (fun _ => rfl) (fun _ => rfl)

theorem EncodeRow.watchRng (a b : Word) : EncodeRow.Statement (.watchRng a b) :=
  encodeRow_of_header rfl rfl (fun _ => rfl) (fun _ => rfl)

theorem EncodeRow.setMbcb (idx : Byte) (h : Word) : EncodeRow.Statement (.setMbcb idx h) :=
  encodeRow_of_header rfl rfl (fun _ => rfl) (nofun)

theorem EncodeRow.clrMbcb (idx : Byte) : EncodeRow.Statement (.clrMbcb idx) :=
  encodeRow_of_header rfl rfl (fun _ => rfl) (nofun)

theorem EncodeRow.setGcb (h : Word) : EncodeRow.Statement (.setGcb h) :=
  encodeRow_of_header rfl rfl (fun _ => rfl) (fun _ => rfl)

theorem EncodeRow.attach (lid : Byte) : EncodeRow.Statement (.attach lid) :=
  encodeRow_of_header rfl rfl (nofun) (fun _ => rfl)

theorem EncodeRow.detach (lid : Byte) : EncodeRow.Statement (.detach lid) :=
  encodeRow_of_header rfl rfl (nofun) (fun _ => rfl)

theorem EncodeRow.enMb (lid idx : Byte) : EncodeRow.Statement (.enMb lid idx) :=
  encodeRow_of_header rfl rfl (nofun) (nofun)

theorem EncodeRow.disMb (lid idx : Byte) : EncodeRow.Statement (.disMb lid idx) :=
  encodeRow_of_header rfl rfl (nofun) (nofun)

theorem EncodeRow.enGen (lid : Byte) : EncodeRow.Statement (.enGen lid) :=
  encodeRow_of_header rfl rfl (nofun) (fun _ => rfl)

theorem EncodeRow.disGen (lid : Byte) : EncodeRow.Statement (.disGen lid) :=
  encodeRow_of_header rfl rfl (nofun) (fun _ => rfl)

theorem EncodeRow.isEn (lid idx : Byte) : EncodeRow.Statement (.isEn lid idx) :=
  encodeRow_of_header rfl rfl (nofun) (nofun)

theorem EncodeRow.dispatch (idx : Byte) (frame : Frame) : EncodeRow.Statement (.dispatch idx frame) :=
  encodeRow_of_header rfl rfl (fun _ => rfl) (nofun)

theorem EncodeRow.rdDrop : EncodeRow.Statement .rdDrop :=
  encodeRow_of_header rfl rfl (fun _ => rfl) (fun _ => rfl)

end Sys2Proof.Laws
end

