-- ==== Sys2Proof/Laws/Routing.lean ====
section
/-!
SUPPORT. What each of the four steps of DISPATCH emits (44_dispatch.md R166), as membership, and the two walks over the
slots as walks over the list of slots.
-/

namespace Sys2Proof.Machine

/-- Walking the slot indices is walking the list of slots. -/
theorem slotIndices_filterMap (s : State) (g : Option Byte → Option Event) :
    (slotIndices.filterMap fun i => g s.slots[i]) = s.slots.toList.filterMap g := by
  rw [slots_toList]; rfl

/-- What step (2) emits for one slot. -/
def mailboxListenerEvent (s : State) (m : Byte) (f : Frame) : Option Byte → Option Event
  | some l => if s.maskBit l m.toNat then some (.deliv .lsMb m (l.setWidth 32) f) else none
  | none => none

/-- What step (4) emits for one slot. -/
def generalListenerEvent (s : State) (m : Byte) (f : Frame) : Option Byte → Option Event
  | some l =>
    if !s.maskBit l m.toNat && s.maskBit l s.params.nf then some (.deliv .lsGen m (l.setWidth 32) f) else none
  | none => none

theorem mailboxListenerEvents_eq (s : State) (m : Byte) (f : Frame) :
    mailboxListenerEvents s m f = s.slots.toList.filterMap (mailboxListenerEvent s m f) := by
  rw [← slotIndices_filterMap]; rfl

theorem generalListenerEvents_eq (s : State) (m : Byte) (f : Frame) :
    generalListenerEvents s m f = s.slots.toList.filterMap (generalListenerEvent s m f) := by
  rw [← slotIndices_filterMap]; rfl

theorem mem_mailboxCallbackEvents {s : State} {m : Byte} {f : Frame} {e : Event} :
    e ∈ mailboxCallbackEvents s m f ↔ ∃ h, s.mbcbAt m = some h ∧ e = .deliv .cbMb m h f := by
  unfold mailboxCallbackEvents; cases s.mbcbAt m <;> simp

theorem mem_generalCallbackEvents {s : State} {m : Byte} {f : Frame} {e : Event} :
    e ∈ generalCallbackEvents s m f ↔ ∃ h, s.mbcbAt m = none ∧ s.gcb = some h ∧ e = .deliv .cbGen m h f := by
  unfold generalCallbackEvents; cases s.mbcbAt m <;> cases s.gcb <;> simp

theorem mem_mailboxListenerEvents {s : State} {m : Byte} {f : Frame} {e : Event} :
    e ∈ mailboxListenerEvents s m f ↔
      ∃ l, some l ∈ s.slots.toList ∧ s.maskBit l m.toNat = true ∧ e = .deliv .lsMb m (l.setWidth 32) f := by
  rw [mailboxListenerEvents_eq, List.mem_filterMap]
  constructor
  · rintro ⟨_ | l, ho, h⟩
    · cases h
    · simp only [mailboxListenerEvent] at h
      split at h
      · cases h; exact ⟨l, ho, ‹_›, rfl⟩
      · cases h
  · rintro ⟨l, h1, h2, rfl⟩; exact ⟨_, h1, by simp [mailboxListenerEvent, h2]⟩

theorem mem_generalListenerEvents {s : State} {m : Byte} {f : Frame} {e : Event} :
    e ∈ generalListenerEvents s m f ↔
      ∃ l, some l ∈ s.slots.toList ∧ s.maskBit l m.toNat = false ∧ s.maskBit l s.params.nf = true ∧
        e = .deliv .lsGen m (l.setWidth 32) f := by
  rw [generalListenerEvents_eq, List.mem_filterMap]
  constructor
  · rintro ⟨_ | l, ho, h⟩
    · cases h
    · simp only [generalListenerEvent] at h
      split at h
      · rename_i hb; cases h; simp only [Bool.and_eq_true, Bool.not_eq_true'] at hb; exact ⟨l, ho, hb.1, hb.2, rfl⟩
      · cases h
  · rintro ⟨l, h1, h2, h3, rfl⟩; exact ⟨_, h1, by simp [generalListenerEvent, h2, h3]⟩

/-- Two handles with one target word are one handle. -/
theorem handleWord_inj {l k : Byte} : l.setWidth 32 = k.setWidth 32 ↔ l = k := by
  constructor
  · intro h
    have h' := congrArg BitVec.toNat h
    apply BitVec.eq_of_toNat_eq
    simp only [BitVec.toNat_setWidth] at h'
    omega
  · rintro rfl; rfl

end Sys2Proof.Machine
end

