-- ==== Sys2Proof/Tests/Slice0.lean ====
section
/-!
SUPPORT. The model's own tests. Expected values are those the spec prints: 30_encoding.md R84 and 95_test_vectors.md (its
section is named at each test). After them, one witness per statement of Certificates/Slice0 that has hypotheses: concrete
states and operands that meet all the hypotheses together, one per clause, at the ends of the ranges.
-/

namespace Sys2Proof.Tests

open Sys2Proof.Machine

/-! ### Helpers -/

/-- The frame F1 of 95_test_vectors.md. -/
def frame1 : Frame := ⟨0x00000123, 0x00000000, 0x00000000, 0x00000200, 0x0000BBAA, 0x00000000⟩

/-- The frame F2 of 95_test_vectors.md. -/
def frame2 : Frame := ⟨0x18DAF110, 0x00000000, 0x00001000, 0x00000801, 0x04030201, 0x08070605⟩

/-- The block with some callbacks, slots and masks set, everything else as after reset (NF = 8, NL = 8). -/
def block (mbcb : List (Byte × Word)) (gcb : Option Word) (slots : Vector (Option Byte) 4) (masks : List (Byte × Word)) :
    State :=
  let s := mbcb.foldl (fun s e => s.setMbcbAt e.1 (some e.2)) State.reset
  let s := masks.foldl (fun s e => s.setMask e.1 e.2) s
  { s with gcb := gcb, slots := slots }

/-- The block with only the slots set. -/
def slotted (slots : Vector (Option Byte) 4) : State := block [] none slots []

/-- The state with these words at the command port. -/
def sending (s : State) (ws : List Word) : State := { s with inputs := asInputs ws }

/-- The response packet the hardware sends to these words. -/
def answer (s : State) (ws : List Word) : Option (List Word) := (lastResponse (step (sending s ws))).map Response.words

/-- The event packets the hardware has sent after these words. -/
def sent (s : State) (ws : List Word) : Option (List (List Word)) :=
  (answered (step (sending s ws))).map fun t => t.events.map Event.words

/-- The state after these words, if the packet is a command that runs. -/
def after (s : State) (ws : List Word) : Option State := nextOf (step (sending s ws))

/-- The kinds and targets of what DISPATCH of a mailbox sends, in order. -/
def routes (s : State) (m : Byte) (f : Frame) : List (Option (DeliveryKind × Word)) :=
  (deliveries s m f).map Event.route?

/-! ### WellFormed refuses each term outside the domain (R77 cases 4 and 5), and accepts its neighbour -/

theorem test_wellFormed_attach : WellFormed Params.standard (.attach 8) = false ∧ WellFormed Params.standard (.attach 7) = true := by
  decide

theorem test_wellFormed_detach : WellFormed Params.standard (.detach 8) = false ∧ WellFormed Params.standard (.detach 7) = true := by
  decide

theorem test_wellFormed_enMb : WellFormed Params.standard (.enMb 8 0) = false ∧ WellFormed Params.standard (.enMb 7 8) = true := by
  decide

theorem test_wellFormed_disMb : WellFormed Params.standard (.disMb 8 0) = false ∧ WellFormed Params.standard (.disMb 7 8) = true := by
  decide

theorem test_wellFormed_enGen : WellFormed Params.standard (.enGen 8) = false ∧ WellFormed Params.standard (.enGen 7) = true := by
  decide

theorem test_wellFormed_disGen : WellFormed Params.standard (.disGen 8) = false ∧ WellFormed Params.standard (.disGen 7) = true := by
  decide

theorem test_wellFormed_isEn_handle :
    WellFormed Params.standard (.isEn 8 0) = false ∧ WellFormed Params.standard (.isEn 7 0) = true := by decide

theorem test_wellFormed_isEn_bit :
    WellFormed Params.standard (.isEn 3 9) = false ∧ WellFormed Params.standard (.isEn 3 8) = true := by decide

theorem test_wellFormed_dispatch :
    WellFormed Params.standard (.dispatch 8 frame1) = false ∧ WellFormed Params.standard (.dispatch 7 frame1) = true := by
  decide

/-! ### Decoding: one packet per command, its words as the spec prints them (R84; 95_test_vectors.md 2.1 to 2.9) -/

theorem test_decode_synId : decode [0x00000001, 0x00000123] = .instr (.synId 0x123) 2 := by decide

theorem test_decode_synIdm : decode [0x00000002, 0x18DAF100, 0x1FFFFF00] = .instr (.synIdm 0x18DAF100 0x1FFFFF00) 3 := by decide

theorem test_decode_synRng : decode [0x00000003, 0x00000100, 0x0000010F] = .instr (.synRng 0x100 0x10F) 3 := by decide

theorem test_decode_watchAll : decode [0x00000008] = .instr .watchAll 1 := by decide

theorem test_decode_watchId : decode [0x00000009, 0x00000800] = .instr (.watchId 0x800) 2 := by decide

theorem test_decode_watchIdm : decode [0x0000000A, 0x00000100, 0x1FFFFFFF] = .instr (.watchIdm 0x100 0x1FFFFFFF) 3 := by decide

theorem test_decode_watchRng : decode [0x0000000B, 0x000007FE, 0x00000801] = .instr (.watchRng 0x7FE 0x801) 3 := by decide

theorem test_decode_setMbcb : decode [0x00000710, 0x77777777] = .instr (.setMbcb 7 0x77777777) 2 := by decide

theorem test_decode_clrMbcb : decode [0x00000811] = .instr (.clrMbcb 8) 1 := by decide

theorem test_decode_setGcb : decode [0x00000012, 0xCAFE00FF] = .instr (.setGcb 0xCAFE00FF) 2 := by decide

theorem test_decode_attach : decode [0x00030020] = .instr (.attach 3) 1 := by decide

theorem test_decode_detach : decode [0x00050021] = .instr (.detach 5) 1 := by decide

theorem test_decode_enMb : decode [0x00030228] = .instr (.enMb 3 2) 1 := by decide

theorem test_decode_disMb : decode [0x00030829] = .instr (.disMb 3 8) 1 := by decide

theorem test_decode_enGen : decode [0x00C8002A] = .instr (.enGen 200) 1 := by decide

theorem test_decode_disGen : decode [0x0003002B] = .instr (.disGen 3) 1 := by decide

theorem test_decode_isEn : decode [0x0003082C] = .instr (.isEn 3 8) 1 := by decide

theorem test_decode_dispatch :
    decode [0x00000530, 0x00000123, 0x00000000, 0x00000000, 0x00000200, 0x0000BBAA, 0x00000000] =
      .instr (.dispatch 5 frame1) 7 := by decide

theorem test_decode_rdDrop : decode [0x00000038] = .instr .rdDrop 1 := by decide

/-- 95_test_vectors.md 2.10, cases 1 to 3. -/
theorem test_decode_illegal :
    decode [0x00000000] = .illegal .unknownOpcode 1 ∧ decode [0x00000039, 0] = .illegal .unknownOpcode 1 ∧
      decode [0x80000030, 0, 0, 0, 0, 0, 0] = .illegal .reservedField 7 ∧
      decode [0x00010003, 0, 0] = .illegal .unusedField 3 ∧ decode [0x00010010, 0] = .illegal .unusedField 2 ∧
      decode [0x00000120] = .illegal .unusedField 1 ∧ decode [0x00000138] = .illegal .unusedField 1 := by decide

/-- R72: a packet that is not whole yet. -/
theorem test_decode_incomplete : decode [] = .incomplete ∧ decode [0x00000003, 1] = .incomplete := by decide

/-! ### One step -/

/-- 2.1. -/
theorem test_step_synId :
    answer State.reset [0x00000001, 0x000007FF] = some [0, 0x000007FF, 0x000007FF, 0] ∧
      answer State.reset [0x00000001, 0xFFFFFFFF] = some [0, 0xFFFFFFFF, 0x1FFFFFFF, 1] := by decide

/-- 2.2: the extended flag follows the first operand alone. -/
theorem test_step_synIdm :
    answer State.reset [0x00000002, 0x00000800, 0x000007FF] = some [0, 0x00000800, 0x000007FF, 1] ∧
      answer State.reset [0x00000002, 0x00000123, 0xFFFFFFFF] = some [0, 0x00000123, 0xFFFFFFFF, 0] := by decide

/-- 2.3. -/
theorem test_step_synRng :
    answer State.reset [0x00000003, 0x0000010F, 0x00000100] = some [0, 0x00000100, 0x000007F0, 0] ∧
      answer State.reset [0x00000003, 0x000007FE, 0x00000801] = some [0, 0x00000000, 0x1FFFF000, 1] := by decide

/-- 2.3, above the 29-bit width, and the whole u32 range. -/
theorem test_step_synRng_high :
    answer State.reset [0x00000003, 0x20000000, 0x20000003] = some [0, 0x20000000, 0x1FFFFFFC, 1] ∧
      answer State.reset [0x00000003, 0x00000000, 0xFFFFFFFF] = some [0, 0x00000000, 0x00000000, 1] := by decide

/-- 1.2: the scan of R105 on the spec's numeric example. -/
theorem test_scan : filterForRangeScan 0x100 0x10F = ⟨0x100, 0x7F0, false⟩ := by decide

/-- 2.4. -/
theorem test_match :
    filterMatches ⟨0x100, 0x7F0, false⟩ 0x10F false = true ∧ filterMatches ⟨0x100, 0x7F0, false⟩ 0x0FF false = false ∧
      filterMatches ⟨0x100, 0x7F0, false⟩ 0x105 true = false ∧
      filterMatches ⟨0x20000001, 0xFFFFFFFF, true⟩ 0x00000001 true = false ∧
      filterMatches ⟨0x7FF, 0x700, false⟩ 0x7AB false = true := by decide

/-- 2.9, with the driver's reply standing at the port. -/
theorem test_step_watchAll :
    answer { State.reset with drvIn := [0x00000005] } [0x00000008] = some [0, 0x00000005, 0, 0] ∧
      sent { State.reset with drvIn := [0x00000005] } [0x00000008] = some [[0, 0, 0]] := by decide

theorem test_step_watchId :
    answer { State.reset with drvIn := [0xDEADBEEF] } [0x00000009, 0x00000800] = some [0, 0xDEADBEEF, 0, 0] ∧
      sent { State.reset with drvIn := [0xDEADBEEF] } [0x00000009, 0x00000800] =
        some [[0x00000800, 0x1FFFFFFF, 0x00000001]] := by decide

theorem test_step_watchIdm :
    answer { State.reset with drvIn := [0xFFFFFFFF] } [0x0000000A, 0x00000100, 0x1FFFFFFF] = some [0, 0xFFFFFFFF, 0, 0] ∧
      sent { State.reset with drvIn := [0xFFFFFFFF] } [0x0000000A, 0x00000100, 0x1FFFFFFF] =
        some [[0x00000100, 0x1FFFFFFF, 0x00000000]] := by decide

theorem test_step_watchRng :
    answer { State.reset with drvIn := [0x00000007] } [0x0000000B, 0x000007FE, 0x00000801] = some [0, 0x00000007, 0, 0] ∧
      sent { State.reset with drvIn := [0x00000007] } [0x0000000B, 0x000007FE, 0x00000801] =
        some [[0x00000000, 0x1FFFF000, 0x00000001]] := by decide

/-- R186: with no reply word at the port the reply is the free value, whatever it is. -/
theorem test_step_watch_free : answer State.reset [0x00000008] = some [0, Config.drvStat 0, 0, 0] := by rfl

/-- 2.6 steps 2 and 5: the last mailbox, and a token 0. -/
theorem test_step_setMbcb :
    (after State.reset [0x00000710, 0x77777777]).map (·.mbcbAt 7) = some (some 0x77777777) ∧
      (after (block [(0, 0x11111111)] none (State.reset).slots []) [0x00000010, 0x00000000]).map (·.mbcbAt 0) =
        some (some 0x00000000) := by decide

/-- 2.6 step 3: `SET.MBCB 8` answers InvalidMailbox and changes nothing. -/
theorem test_step_setMbcb_invalid :
    answer State.reset [0x00000810, 0x88888888] = some [1, 0, 0, 0] ∧
      (after State.reset [0x00000810, 0x88888888]).map (·.mbcb) = some State.reset.mbcb := by decide

/-- 2.6 steps 6 to 8. -/
theorem test_step_clrMbcb :
    (after (block [(0, 0)] none (State.reset).slots []) [0x00000011]).map (·.mbcbAt 0) = some none ∧
      answer State.reset [0x00000011] = some [0, 0, 0, 0] ∧ answer State.reset [0x00000811] = some [1, 0, 0, 0] := by decide

/-- 2.6 steps 9 and 10: GCB_PRESENT rises even with token 0; the last write wins. -/
theorem test_step_setGcb :
    (after State.reset [0x00000012, 0x00000000]).map (fun t => (t.gcb, t.gcbPresent)) = some (some 0, true) ∧
      (after (block [] (some 0) (State.reset).slots []) [0x00000012, 0xCAFE00FF]).map (·.gcb) =
        some (some 0xCAFE00FF) := by decide

/-- 2.5 steps 9 and 14: the lowest free slot, and the mask of the handle cleared. -/
theorem test_step_attach :
    (after (slotted #v[some 0, none, some 2, none]) [0x00030020]).map (·.slots) = some #v[some 0, some 3, some 2, none] ∧
      (after (block [] none #v[none, some 3, some 2, some 5] [(1, 0x108), (4, 0x80)]) [0x00010020]).map
        (fun t => (t.slots, t.maskAt 1, t.maskAt 4)) = some (#v[some 1, some 3, some 2, some 5], 0, 0x80) := by decide

/-- 2.5 steps 11 and 16: RegistryFull keeps the mask; `LID = 8` is Illegal. -/
theorem test_step_attach_errors :
    answer (slotted #v[some 0, some 3, some 2, some 5]) [0x00040020] = some [2, 0, 0, 0] ∧
      (after (block [] none #v[some 0, some 3, some 2, some 5] [(4, 0x80)]) [0x00040020]).map (·.maskAt 4) = some 0x80 ∧
      answer (slotted #v[some 0, some 3, some 2, some 5]) [0x00080020] = some [0xFF, 0, 0, 0] := by decide

/-- 2.5 steps 20 and 6: the lowest slot that holds the handle; the mask stays. -/
theorem test_step_detach :
    (after (slotted #v[some 1, some 3, some 3, some 5]) [0x00030021]).map (·.slots) = some #v[some 1, none, some 3, some 5] ∧
      (after (block [] none #v[some 0, some 1, some 2, none] [(1, 0x108)]) [0x00010021]).map (·.maskAt 1) = some 0x108 := by
  decide

/-- 1.10 steps 4 and 5; 2.5 step 17. -/
theorem test_step_detach_errors :
    answer (slotted #v[none, some 6, none, none]) [0x00050021] = some [3, 0, 0, 0] ∧
      (after (slotted #v[none, some 6, none, none]) [0x00050021]).map (·.slots) = some #v[none, some 6, none, none] ∧
      answer (slotted #v[none, some 6, none, none]) [0x00080021] = some [0xFF, 0, 0, 0] := by decide

/-- 2.7 steps 2 and 3. -/
theorem test_step_enMb :
    (after (block [] none (State.reset).slots [(3, 0x001)]) [0x00030728]).map (·.maskAt 3) = some 0x081 ∧
      (after (block [] none (State.reset).slots [(3, 0x081)]) [0x00030728]).map (·.maskAt 3) = some 0x081 := by decide

/-- 2.7 step 4; 2.11: the handle is checked first. -/
theorem test_step_enMb_errors :
    answer State.reset [0x00030828] = some [1, 0, 0, 0] ∧ answer State.reset [0x00080828] = some [0xFF, 0, 0, 0] := by decide

/-- 2.7 steps 12, 13 and 14. -/
theorem test_step_disMb :
    (after (block [] none (State.reset).slots [(3, 0x181)]) [0x00030029]).map (·.maskAt 3) = some 0x180 ∧
      (after (block [] none (State.reset).slots [(3, 0x180)]) [0x00030029]).map (·.maskAt 3) = some 0x180 ∧
      answer State.reset [0x00030829] = some [1, 0, 0, 0] := by decide

/-- 2.7 step 5, and a handle outside the block. -/
theorem test_step_enGen :
    (after (block [] none (State.reset).slots [(3, 0x081)]) [0x0003002A]).map (·.maskAt 3) = some 0x181 ∧
      answer State.reset [0x00C8002A] = some [0xFF, 0, 0, 0] := by decide

/-- 2.7 steps 15 and 16. -/
theorem test_step_disGen :
    (after (block [] none (State.reset).slots [(3, 0x180)]) [0x0003002B]).map (·.maskAt 3) = some 0x080 ∧
      (after (block [] none (State.reset).slots [(3, 0x080)]) [0x0003002B]).map (·.maskAt 3) = some 0x080 := by decide

/-- 2.7 steps 7 to 9. -/
theorem test_step_isEn :
    answer (block [] none (State.reset).slots [(3, 0x181)]) [0x0003012C] = some [0, 0, 0, 0] ∧
      answer (block [] none (State.reset).slots [(3, 0x181)]) [0x0003072C] = some [0, 1, 0, 0] ∧
      answer (block [] none (State.reset).slots [(3, 0x181)]) [0x0003082C] = some [0, 1, 0, 0] := by decide

/-- 2.7 step 10; 2.10. -/
theorem test_step_isEn_errors :
    answer State.reset [0x0003092C] = some [0xFF, 0, 0, 0] ∧ answer State.reset [0x00FF002C] = some [0xFF, 0, 0, 0] := by
  decide

/-- The state of 2.8 part C. -/
def partC : State :=
  block [(2, 0xC0000002)] (some 0xC00000FF) #v[some 4, some 1, none, some 6]
    [(4, 0x100), (1, 0x004), (6, 0x106), (2, 0x1FF)]

/-- 2.8 part C. -/
theorem test_dispatch_routes :
    routes partC 2 frame2 = [some (.cbMb, 0xC0000002), some (.lsMb, 1), some (.lsMb, 6), some (.lsGen, 4)] ∧
      routes partC 1 frame2 = [some (.lsMb, 6), some (.cbGen, 0xC00000FF), some (.lsGen, 4)] ∧
      routes partC 7 frame2 = [some (.cbGen, 0xC00000FF), some (.lsGen, 4), some (.lsGen, 6)] := by decide

/-- 2.8, the five events of R177: all of step 2 before step 4. -/
theorem test_dispatch_five :
    routes (block [(0, 0xC0000000)] none #v[some 0, some 1, some 2, some 3] [(0, 1), (1, 0x100), (2, 1), (3, 0x101)]) 0 frame1 =
      [some (.cbMb, 0xC0000000), some (.lsMb, 0), some (.lsMb, 2), some (.lsMb, 3), some (.lsGen, 1)] := by decide

/-- 2.8 part D: the event packets, in the state of 1.8. -/
theorem test_step_dispatch_packets :
    sent (block [(2, 0xCAFE0002)] (some 0xCAFE00FF) #v[some 3, none, none, none] [(3, 0x104)])
        [0x00000530, 0x00000123, 0x00000000, 0x00000000, 0x00000200, 0x0000BBAA, 0x00000000] =
      some [[0x00000502, 0xCAFE00FF, 0x00000123, 0x00000000, 0x00000000, 0x00000200, 0x0000BBAA, 0x00000000],
        [0x00000503, 0x00000003, 0x00000123, 0x00000000, 0x00000000, 0x00000200, 0x0000BBAA, 0x00000000]] := by decide

/-- 2.8 parts E and F: a frame for nobody counts, the counter wraps, and a mailbox that does not exist is Illegal. -/
theorem test_step_dispatch_drop :
    (after State.reset [0x00000730, 0, 0, 0, 0, 0, 0]).map (fun t => (t.drops, t.events)) = some (1, []) ∧
      (after { State.reset with drops := 0xFFFFFFFF } [0x00000030, 0, 0, 0, 0, 0, 0]).map (·.drops) = some 0 ∧
      answer State.reset [0x00000830, 0, 0, 0, 0, 0, 0] = some [0xFF, 0, 0, 0] := by decide

/-- 2.8 part F: the read does not clear the counter. -/
theorem test_step_rdDrop :
    answer { State.reset with drops := 2 } [0x00000038] = some [0, 2, 0, 0] ∧
      (after { State.reset with drops := 2 } [0x00000038]).map (·.drops) = some 2 := by decide

/-- R54 on F2: payload byte 0 is in bits 7..0 of FW4. -/
theorem test_frame_views :
    frameByte frame2 0 = 0x01 ∧ frameByte frame2 7 = 0x08 ∧ frameS0 frame2 = 0x0201 ∧ frameHi32 frame2 = 0x08070605 ∧
      frameLength frame2 = 8 ∧ frameExtended frame2 = true := by decide

/-- R230, R232: reset clears the registry and leaves what has been sent. -/
theorem test_step_reset :
    (nextOf (step { partC with inputs := [.reset], drops := 9 })).map
      (fun t => (t.gcb, t.drops, t.maskAt 2, t.slots)) = some (none, 0, 0, #v[none, none, none, none]) := by decide

/-! ### Witnesses: packets and the step -/

theorem test_witness_EncodeOfDecode : decode [0x0003082C, 0x12345678] = .instr (.isEn 3 8) 1 := by decide

/-- The row SET.MBCB: a matching header with its operand word, and a header that does not match. -/
theorem test_witness_HeaderSelectsRow :
    (Op.setMbcb.format.words ≤ [(0xCAFE0002 : Word)].length + 1 ∧ (0x0000FF10 : Word) &&& Op.setMbcb.mask = Op.setMbcb.pattern) ∧
      (0x00010010 : Word) &&& Op.setMbcb.mask ≠ Op.setMbcb.pattern := by decide

/-- The hypotheses of IllegalCases for one packet: its words stand at the port, and there are as many as R73 says. -/
def wholePacket (s : State) (h : Word) (ws : List Word) (rest : List Input) : Prop :=
  s.inputs = asInputs (h :: ws) ++ rest ∧ ws.length + 1 = packetWords h

/-- Case 1, with a reset and a word behind the packet. -/
theorem test_witness_IllegalCases_unknownOpcode :
    wholePacket { State.reset with inputs := [.word 0x00000039, .reset, .word 1] } 0x00000039 [] [.reset, .word 1] ∧
      ∀ o : Op, o.code ≠ hdrOp 0x00000039 := by
  refine ⟨⟨rfl, by decide⟩, fun o => ?_⟩
  cases o <;> decide

/-- Case 2 (not case 1), on the longest packet. -/
theorem test_witness_IllegalCases_reservedField :
    wholePacket (sending State.reset [0x80000030, 1, 2, 3, 4, 5, 6]) 0x80000030 [1, 2, 3, 4, 5, 6] [] ∧
      Op.dispatch.code = hdrOp 0x80000030 ∧ hdrRsv 0x80000030 ≠ 0 := ⟨⟨rfl, by decide⟩, by decide, by decide⟩

/-- Case 3 (not cases 1, 2), once by IDX and once by LID. -/
theorem test_witness_IllegalCases_unusedField :
    (wholePacket (sending State.reset [0x00000120]) 0x00000120 [] [] ∧ Op.attach.code = hdrOp 0x00000120 ∧
      hdrRsv 0x00000120 = 0 ∧ Op.attach.usesIdx = false ∧ hdrIdx 0x00000120 ≠ 0) ∧
    (wholePacket (sending State.reset [0x00010010, 7]) 0x00010010 [7] [] ∧ Op.setMbcb.code = hdrOp 0x00010010 ∧
      hdrRsv 0x00010010 = 0 ∧ Op.setMbcb.usesLid = false ∧ hdrLid 0x00010010 ≠ 0) :=
  ⟨⟨⟨rfl, by decide⟩, by decide⟩, ⟨⟨rfl, by decide⟩, by decide⟩⟩

/-- Case 4 (not cases 1 to 3): `LID = NL`; and its neighbour `LID = NL - 1`, which runs. -/
theorem test_witness_IllegalCases_unknownListener :
    (wholePacket (sending State.reset [0x00080020]) 0x00080020 [] [] ∧ Op.attach.code = hdrOp 0x00080020 ∧
      hdrRsv 0x00080020 = 0 ∧ hdrIdx 0x00080020 = 0 ∧ Op.attach.usesLid = true ∧
      State.reset.params.nl ≤ (hdrLid 0x00080020).toNat) ∧
    (wholePacket (sending State.reset [0x00070020]) 0x00070020 [] [] ∧ (hdrLid 0x00070020).toNat + 1 = State.reset.params.nl) :=
  ⟨⟨⟨rfl, by decide⟩, by decide⟩, ⟨⟨rfl, by decide⟩, by decide⟩⟩

/-- Case 5 (not cases 1 to 4): IS.EN with `IDX = NF + 1` and DISPATCH with `IDX = NF`; and their neighbours, which run. -/
theorem test_witness_IllegalCases_outOfDomain :
    (wholePacket (sending State.reset [0x0003092C]) 0x0003092C [] [] ∧ hdrOp 0x0003092C = 0x2C ∧ hdrRsv 0x0003092C = 0 ∧
      (hdrLid 0x0003092C).toNat < State.reset.params.nl ∧ (hdrIdx 0x0003092C).toNat = State.reset.params.nf + 1) ∧
    (wholePacket (sending State.reset [0x00000830, 1, 2, 3, 4, 5, 6]) 0x00000830 [1, 2, 3, 4, 5, 6] [] ∧
      hdrOp 0x00000830 = 0x30 ∧ hdrRsv 0x00000830 = 0 ∧ hdrLid 0x00000830 = 0 ∧
      (hdrIdx 0x00000830).toNat = State.reset.params.nf) ∧
    (wholePacket (sending State.reset [0x0003082C]) 0x0003082C [] [] ∧ (hdrIdx 0x0003082C).toNat = State.reset.params.nf) ∧
    (wholePacket (sending State.reset [0x00000730, 1, 2, 3, 4, 5, 6]) 0x00000730 [1, 2, 3, 4, 5, 6] [] ∧
      (hdrIdx 0x00000730).toNat + 1 = State.reset.params.nf) :=
  ⟨⟨⟨rfl, by decide⟩, by decide⟩, ⟨⟨rfl, by decide⟩, by decide⟩, ⟨⟨rfl, by decide⟩, by decide⟩, ⟨⟨rfl, by decide⟩, by decide⟩⟩

/-- An assigned opcode with its seven words, and an unassigned one alone; each with something behind the packet. -/
theorem test_witness_PacketLength :
    ((sending State.reset [0x00000230, 1, 2, 3, 4, 5, 6, 9]).inputs =
        asInputs (0x00000230 :: [1, 2, 3, 4, 5, 6]) ++ [.word 9] ∧
      ∀ o : Op, o.code = hdrOp 0x00000230 → [(1 : Word), 2, 3, 4, 5, 6].length + 1 = o.format.words) ∧
    ((sending State.reset [0x000000FF, 9]).inputs = asInputs [0x000000FF] ++ [.word 9] ∧
      ∀ o : Op, o.code ≠ hdrOp 0x000000FF) := by
  refine ⟨⟨rfl, fun o => ?_⟩, ⟨rfl, fun o => ?_⟩⟩ <;> cases o <;> decide

theorem test_witness_StepRunsCommand :
    { State.reset with inputs := [.word 0x00000012, .word 7, .word 0x00000038, .reset] }.inputs =
      asInputs [0x00000012, 7, 0x00000038] ++ [.reset] ∧ decode [0x00000012, 7, 0x00000038] = .instr (.setGcb 7) 2 := by decide

/-- No words at all, and a packet of which the last word is still to come. -/
theorem test_witness_IdleStep :
    (State.reset.inputs = asInputs [] ∧ decode [] = .incomplete) ∧
      ((sending State.reset [0x00000003, 1]).inputs = asInputs [0x00000003, 1] ∧ decode [0x00000003, 1] = .incomplete) := by
  decide

theorem test_witness_ResetInput : { partC with inputs := [.reset, .word 0x38] }.inputs = .reset :: [.word 0x38] := by decide

/-- The smallest and the largest admitted block. -/
theorem test_witness_ResetShape :
    Params.Admitted { nf := 1, nl := 1, watchAll := ⟨0, 0, false⟩ } ∧
      Params.Admitted { nf := 31, nl := 256, watchAll := ⟨0, 0, true⟩ } := by decide

/-- A command, and an Illegal packet, each from a state with everything in use. -/
theorem test_witness_StepKeepsShape :
    partC.Inv ∧ (sending partC [0x00070020]).Inv ∧ (answered (step (sending partC [0x00070020]))).isSome = true ∧
      (answered (step (sending partC [0x00080020]))).isSome = true := by decide

/-- A reachable state one command after reset, with GCB set and a reset input next; the step takes `GCB.v` from 1 to 0. -/
theorem test_witness_ReachableInvariants :
    Params.standard.Admitted ∧
      ∃ s t, Reachable Params.standard s ∧ step s = .next t ∧ s.gcb ≠ none ∧ t.gcb = none ∧ s.inputs = [.reset] := by
  refine ⟨by decide, _, _, .step (.start [.word 0x00000012, .word 7, .reset] []) rfl, rfl, ?_, rfl, rfl⟩
  exact nofun

/-- A reachable state with a valid slot and a mask bit. -/
theorem test_witness_ReachableInvariants_slots :
    ∃ s, Reachable Params.standard s ∧ s.slots[(0 : Fin 4)] = some 7 ∧ s.maskBit 7 8 = true :=
  ⟨_, .step (.step (.start [.word 0x00070020, .word 0x0007002A] []) rfl) rfl, rfl, rfl⟩

theorem test_witness_ParamsFixed : (answered (step (sending partC [0x00000038]))).isSome = true := by decide

/-- Each clause: a command that changes that table. -/
theorem test_witness_CommandWrites :
    (answered (exec (.setMbcb 7 1) State.reset)).map (fun t => decide (t.mbcb ≠ State.reset.mbcb)) = some true ∧
      (answered (exec (.setGcb 1) State.reset)).map (fun t => decide (t.gcb ≠ State.reset.gcb)) = some true ∧
      (answered (exec (.detach 6) partC)).map (fun t => decide (t.slots ≠ partC.slots)) = some true ∧
      (answered (exec (.attach 6) partC)).map (fun t => decide (t.lmask ≠ partC.lmask)) = some true ∧
      (answered (exec (.dispatch 0 frame1) State.reset)).map (fun t => decide (t.drops ≠ State.reset.drops)) = some true ∧
      (answered (exec (.dispatch 7 frame1) partC)).map (fun t => decide (t.events ≠ partC.events)) = some true ∧
      (answered (exec .watchAll State.reset)).map (fun t => decide (t.drvDraws ≠ State.reset.drvDraws)) = some true := by decide

/-- The three source errors and Illegal, each from a state where it is the answer. -/
theorem test_witness_ErrorsArePrecise :
    ((lastResponse (exec (.setMbcb 8 1) State.reset)).map (·.status)) = some .invalidMailbox ∧
      ((lastResponse (exec (.attach 0) (slotted #v[some 0, some 1, some 2, some 3]))).map (·.status)) = some .registryFull ∧
      ((lastResponse (exec (.detach 0) State.reset)).map (·.status)) = some .notFound ∧
      ((lastResponse (exec (.enGen 8) State.reset)).map (·.status)) = some .illegal := by decide

/-- A step that sends something, and one that sends nothing. -/
theorem test_witness_StepAppendsOutputs :
    (answered (step (sending State.reset [0x00000038]))).map (·.responses.length) = some 1 ∧
      (answered (step State.reset)).map (·.responses.length) = some 0 := by decide

theorem test_witness_MeaningExactlyInDomain :
    WellFormed State.reset.params (.isEn 7 8) = true ∧ WellFormed State.reset.params (.isEn 7 9) = false := by decide

/-! ### Witnesses: the synthesizer and the watch commands -/

theorem test_witness_SynIdReply : (0x7FF : Word) ≤ 0x7FF ∧ (0x7FF : Word) < 0x800 := by decide

theorem test_witness_SynIdmReply : (0x0 : Word) ≤ 0x7FF ∧ (0x7FF : Word) < 0xFFFFFFFF := by decide

/-- Equal bounds; and bounds that differ highest in bit 3. -/
theorem test_witness_RangeClosedForm :
    ((0x7FF : Word) = 0x7FF) ∧ ((0x100 : Word) ^^^ 0x10F).getLsbD 3 = true ∧ 0x100 ^^^ 0x10F < BitVec.twoPow 32 4 := by decide

/-- No bit above bit 3 differs in that pair. -/
theorem test_witness_RangeClosedForm_top (j : Nat) (h : 3 < j) : ((0x100 : Word) ^^^ 0x10F).getLsbD j = false := by
  rw [← BitVec.testBit_toNat]
  exact Nat.testBit_lt_two_pow (Nat.lt_of_lt_of_le (by decide : _ < 2 ^ 4) (Nat.pow_le_pow_right (by decide) h))

/-- The bounds in either order; the identifier at an end and inside. -/
theorem test_witness_RangeCovers :
    (((0x100 : Word) ≤ 0x10F ∧ (0x10F : Word) ≤ 0x10F) ∧ ((0x100 : Word) ≤ 0x105 ∧ (0x105 : Word) ≤ 0x10F)) ∧
      true = (filterForRange 0x7FE 0x801).extended := by decide

/-- A pair that admits the range 0x100 to 0x101, not the synthesized one; the bounds differ in bit 0; 0x101 is in the width. -/
theorem test_witness_RangeMinimal :
    (∀ c : Word, ((0x100 : Word) ≤ c ∧ c ≤ 0x101) ∨ ((0x101 : Word) ≤ c ∧ c ≤ 0x100) → c &&& 0x700 = 0x1FF &&& 0x700) ∧
      ((0x100 : Word) ^^^ 0x101).getLsbD 0 = true ∧ (0x100 : Word) ≤ 0x7FF ∧ (0x101 : Word) ≤ 0x7FF ∧
      (0x101 : Word) &&& (filterForRange 0x100 0x101).mask = (filterForRange 0x100 0x101).id &&& (filterForRange 0x100 0x101).mask := by
  refine ⟨fun c h => ?_, by decide⟩
  have hc : c = 0x100 ∨ c = 0x101 := by bv_omega
  rcases hc with rfl | rfl <;> decide

/-- The pair 0x101, 0x10E of the spec's over-admission row, and the extended pair up to the top of the width; the highest
differing bits are 3 and 28. -/
theorem test_witness_RangeOverAdmits :
    (((0x101 : Word) ^^^ 0x10E).getLsbD 3 = true ∧ (0x101 : Word) ^^^ 0x10E < BitVec.twoPow 32 4 ∧ (0x101 : Word) ≤ 0x7FF ∧
      (0x10E : Word) ≤ 0x7FF ∧ (0x7FF : Word) ≤ 0x7FF) ∧
    (((0x0 : Word) ^^^ 0x1FFFFFFF).getLsbD 28 = true ∧ (0x0 : Word) ^^^ 0x1FFFFFFF < BitVec.twoPow 32 29 ∧
      (0x1FFFFFFF : Word) ≤ 0x1FFFFFFF) := by decide

/-- No bit above bit 3 differs in the pair 0x101, 0x10E. -/
theorem test_witness_RangeOverAdmits_top (j : Nat) (h : 3 < j) : ((0x101 : Word) ^^^ 0x10E).getLsbD j = false := by
  rw [← BitVec.testBit_toNat]
  exact Nat.testBit_lt_two_pow (Nat.lt_of_lt_of_le (by decide : _ < 2 ^ 4) (Nat.pow_le_pow_right (by decide) h))

/-- The bounds 0x7FF and 0x800, the narrowest pair across 0x7FF. -/
theorem test_witness_RangeAcrossWidths : (0x7FF : Word) ≤ 0x7FF ∧ (0x7FF : Word) < 0x800 := by decide

/-- The bit clause of RangeAcrossWidths at its lowest bit: 0x800 has no bit from bit 12 on. -/
theorem test_witness_RangeAcrossWidths_bits : 11 ≤ 12 ∧ 12 < 29 ∧ ∀ i, 12 ≤ i → (0x800 : Word).getLsbD i = false := by
  refine ⟨by decide, by decide, fun i h => ?_⟩
  rw [← BitVec.testBit_toNat]
  exact Nat.testBit_lt_two_pow (Nat.lt_of_lt_of_le (by decide : _ < 2 ^ 12) (Nat.pow_le_pow_right (by decide) h))

/-- Bit 10 of the 11-bit width and bit 28 of the 29-bit width. -/
theorem test_witness_RangeCollapse :
    (((0x3FF : Word) ^^^ 0x400).getLsbD 10 = true ∧ (if (0x3FF : Word) ≤ 0x7FF ∧ (0x400 : Word) ≤ 0x7FF then 10 else 28) ≤ 10) ∧
      (((0x0FFFFFFF : Word) ^^^ 0x10000000).getLsbD 28 = true ∧
        (if (0x0FFFFFFF : Word) ≤ 0x7FF ∧ (0x10000000 : Word) ≤ 0x7FF then 10 else 28) ≤ 28) := by decide

theorem test_witness_RangeBits : (0x20000000 : Word) ≤ 0x20000003 ∧ 29 < 32 := by decide

theorem test_witness_WatchForwardsSyn : (Instr.synIdm 5 6 = .synIdm 5 6 ∧ Instr.watchIdm 5 6 = .watchIdm 5 6) := ⟨rfl, rfl⟩

/-- A state with replies at the port, and one with none. -/
theorem test_witness_WatchEffect : { State.reset with drvIn := [5, 6] }.drvIn = 5 :: [6] ∧ State.reset.drvIn = [] := by decide

/-! ### Witnesses: callbacks, registry, masks -/

/-- The last mailbox and the first index that is none, in a state of the shape. -/
theorem test_witness_SetMbcbEffect :
    partC.Inv ∧ (7 : Byte).toNat < partC.params.nf ∧ partC.params.nf ≤ (8 : Byte).toNat := by decide

theorem test_witness_ClrMbcbEffect :
    partC.Inv ∧ (0 : Byte).toNat < partC.params.nf ∧ partC.params.nf ≤ (255 : Byte).toNat := by decide

theorem test_witness_CallbacksApartFromListeners :
    (Instr.clrMbcb 8).op = .clrMbcb ∧ (Instr.attach 8).op = .attach := by decide

/-- A lowest free slot with a full one before it and a free one after; the last handle and the first number that is none. -/
theorem test_witness_AttachEffect :
    (slotted #v[some 0, none, some 2, none]).Inv ∧ (7 : Byte).toNat < State.reset.params.nl ∧
      (slotted #v[some 0, none, some 2, none]).slots[(1 : Fin 4)] = none ∧
      (∀ j : Fin 4, j < 1 → (slotted #v[some 0, none, some 2, none]).slots[j] ≠ none) ∧
      State.reset.params.nl ≤ (8 : Byte).toNat := by decide

theorem test_witness_AttachEffect_full :
    (slotted #v[some 0, some 1, some 2, some 3]).Inv ∧
      ∀ k : Fin 4, (slotted #v[some 0, some 1, some 2, some 3]).slots[k] ≠ none := by decide

/-- The handle 7 in the last slot only; absent; and a number that is no handle. -/
theorem test_witness_DetachEffect :
    (7 : Byte).toNat < State.reset.params.nl ∧ (slotted #v[some 0, none, some 2, some 7]).slots[(3 : Fin 4)] = some 7 ∧
      (∀ j : Fin 4, j < 3 → (slotted #v[some 0, none, some 2, some 7]).slots[j] ≠ some 7) ∧
      (∀ k : Fin 4, (slotted #v[some 0, none, some 2, some 3]).slots[k] ≠ some 7) ∧ State.reset.params.nl ≤ (8 : Byte).toNat := by
  decide

/-- Four handles below NL, two of them different. -/
theorem test_witness_FirstFreeSlot :
    (0 : Byte).toNat < Params.standard.nl ∧ (7 : Byte).toNat < Params.standard.nl ∧ (0 : Byte) ≠ 7 ∧
      (nextOf (exec (.attach 7) State.reset)).map (fun t => decide (t.slots[(0 : Fin 4)] ≠ State.reset.slots[(0 : Fin 4)])) =
        some true := by decide

/-- Free slots and handles below NL; a successful DETACH from a full registry; an ATTACH and a DETACH that answer OK. -/
theorem test_witness_RegistryCapacity :
    (∀ k : Fin 4, State.reset.slots[k] = none) ∧ (7 : Byte).toNat < State.reset.params.nl ∧
      (nextOf (exec (.detach 1) (slotted #v[some 0, some 1, some 2, some 3]))).map (·.responses) = some [⟨.ok, 0, 0, 0⟩] ∧
      (nextOf (exec (.attach 7) State.reset)).map (·.responses) = some [⟨.ok, 0, 0, 0⟩] ∧
      (nextOf (exec (.attach 7) (slotted #v[some 0, some 1, some 2, some 3]))).map (·.responses) =
        some [⟨.registryFull, 0, 0, 0⟩] := by decide

/-- Handle 2 attached with a slot free. -/
theorem test_witness_DuplicateAttach :
    (slotted #v[some 2, none, none, none]).Inv ∧ (2 : Byte).toNat < State.reset.params.nl ∧
      (slotted #v[some 2, none, none, none]).isAttached 2 = true ∧ (slotted #v[some 2, none, none, none]).isFull = false := by
  decide

/-- No handle twice, and an ATTACH of a handle that is not attached. -/
theorem test_witness_DuplicateAttach_once :
    (slotted #v[some 2, none, some 3, none]).NoHandleTwice ∧ (slotted #v[some 2, none, some 3, none]).isAttached 4 = false ∧
      (nextOf (exec (.attach 4) (slotted #v[some 2, none, some 3, none]))).isSome = true := by decide

/-- The last handle and mailbox, and the first numbers that are none. -/
theorem test_witness_MailboxBitEffect :
    partC.Inv ∧ Instr.enMb 7 7 = (if true then .enMb 7 7 else .disMb 7 7) ∧ (7 : Byte).toNat < partC.params.nl ∧
      (7 : Byte).toNat < partC.params.nf ∧ partC.params.nf ≤ (8 : Byte).toNat ∧ partC.params.nl ≤ (8 : Byte).toNat := by decide

theorem test_witness_GeneralBitEffect :
    partC.Inv ∧ Instr.disGen 7 = (if false then .enGen 7 else .disGen 7) ∧ (7 : Byte).toNat < partC.params.nl ∧
      partC.params.nl ≤ (200 : Byte).toNat := by decide

/-- The general bit is the last index of IS.EN. -/
theorem test_witness_IsEnReply :
    (7 : Byte).toNat < partC.params.nl ∧ (8 : Byte).toNat ≤ partC.params.nf ∧ partC.params.nl ≤ (8 : Byte).toNat ∧
      partC.params.nf < (9 : Byte).toNat := by decide

/-- Two listeners on one mailbox, and one listener on a mailbox bit and on the general bit. -/
theorem test_witness_MaskLaws :
    partC.Inv ∧ (7 : Byte).toNat < partC.params.nl ∧ (6 : Byte).toNat < partC.params.nl ∧ (7 : Byte).toNat < partC.params.nf ∧
      (7 : Byte) ≠ 6 ∧ (nextOf (exec (.enMb 7 7) partC)).isSome = true ∧
      (if (Instr.enMb 7 7).op = .enMb ∨ (Instr.enMb 7 7).op = .disMb then some (7 : Byte) else none) ≠
        (if (Instr.enGen 7).op = .enMb ∨ (Instr.enGen 7).op = .disMb then some (7 : Byte) else none) := by decide

/-! ### Witnesses: dispatch and the rules across the families -/

/-- The last mailbox and the first index that is none. -/
theorem test_witness_DispatchEffect : (7 : Byte).toNat < partC.params.nf ∧ partC.params.nf ≤ (8 : Byte).toNat := by decide

theorem test_witness_DecisionTable : (2 : Byte).toNat < partC.params.nf ∧ partC.mbcbAt 2 = some 0xC0000002 := by decide

theorem test_witness_DeliveryConditions : (0 : Byte).toNat < partC.params.nf ∧ partC.mbcbAt 0 = none := by decide

/-- Nobody is interested in a block with an attached listener whose mask is empty; somebody is, in the state of 2.8 part C. -/
theorem test_witness_DropRule :
    (7 : Byte).toNat < State.reset.params.nf ∧ deliveries (slotted #v[some 3, none, none, none]) 7 frame1 = [] ∧
      deliveries partC 7 frame1 ≠ [] := by decide

theorem test_witness_DeliveryBounds : (2 : Byte).toNat < partC.params.nf ∧ partC.validSlots = 3 := by decide

theorem test_witness_FrameOpaque : (2 : Byte).toNat < partC.params.nf ∧ frame1 ≠ frame2 := by decide

/-- Each branch: the mailbox bit, the general bit alone, and neither. -/
theorem test_witness_OneDeliveryPerSlot :
    (2 : Byte).toNat < partC.params.nf ∧ partC.maskBit 1 2 = true ∧ partC.maskBit 4 2 = false ∧
      partC.maskBit 4 partC.params.nf = true ∧ partC.maskBit 1 0 = false ∧ partC.maskBit 1 partC.params.nf = false := by decide

theorem test_witness_ReadsHaveNoSideEffect :
    (Instr.isEn 6 8).op = .isEn ∧ (nextOf (exec (.isEn 6 8) partC)).isSome = true ∧
      ((nextOf (exec (.isEn 6 8) partC)).bind (execAll [.rdDrop, .watchId 5])).isSome = true := by decide

/-- A listener enabled before it attaches. -/
theorem test_witness_AttachBeforeEnable :
    (block [] none #v[some 0, none, none, none] [(6, 0x110)]).Inv ∧
      (nextOf (exec (.attach 6) (block [] none #v[some 0, none, none, none] [(6, 0x110)]))).map (·.responses) =
        some ((block [] none #v[some 0, none, none, none] [(6, 0x110)]).responses ++ [⟨.ok, 0, 0, 0⟩]) ∧
      (nextOf (exec (.detach 6) (block [] none #v[some 0, none, none, none] [(6, 0x110)]))).isSome = true ∧
      (8 : Byte).toNat ≤ State.reset.params.nf ∧ (7 : Byte).toNat < State.reset.params.nf := by decide

end Sys2Proof.Tests
end

namespace Sys2Proof

/-! ### Decoding a whole packet does not depend on the words behind it (30_encoding.md R73) -/

/-- The operand words of a whole packet are read from the front of the list. -/
theorem buildInstr_append {o : Op} {ws : List Word} (h : Word) (tail : List Word)
    (hw : o.format.words ≤ ws.length + 1) : buildInstr o h (ws ++ tail) = buildInstr o h ws := by
  have operand (k : Nat) (hk : k + 1 < o.format.words) : (ws ++ tail).getD k 0 = ws.getD k 0 :=
    List.getD_append ws tail 0 k (by omega)
  cases o <;> simp (disch := decide) only [buildInstr, frameOf, operand]

/-- Words behind a whole packet, a command's or an Illegal one, do not change what it decodes to. -/
theorem decode_append {ws : List Word} (tail : List Word) (hw : decode ws ≠ .incomplete) :
    decode (ws ++ tail) = decode ws := by
  cases ws with
  | nil => exact absurd rfl hw
  | cons h ws =>
    rw [List.cons_append]
    cases ho : Op.ofCode (hdrOp h) with
    | none => rw [decode_of_noOp ho, decode_of_noOp ho]
    | some o =>
      by_cases hlen : o.format.words ≤ ws.length + 1
      · rw [decode_of_op ho hlen, decode_of_op ho (by rw [List.length_append]; omega),
          buildInstr_append h tail hlen]
      · exact absurd (by simp [decode, ho, Nat.lt_of_not_le hlen]) hw

end Sys2Proof

namespace Sys2Proof.Machine

/-! ### The step (00_scope.md R8) -/

/-- A whole command at the command port is fetched, and the port moves past its packet. -/
theorem fetch_of_decode_instr {ws : List Word} {rest : List Input} {i : Instr} {n : Nat}
    (h : decode ws = .instr i n) : fetch (asInputs ws ++ rest) = .command i ((asInputs ws ++ rest).drop n) := by
  have hne : ws ≠ [] := by rintro rfl; cases h
  rw [fetch_asInputs hne, decode_append _ (by rw [h]; nofun), h]

/-- Settles O7: the decoder reads the same command whatever stands behind its packet. -/
theorem stepRunsCommand : Obligations.StepRunsCommand := by
  intro s ws rest i n hin hdec
  rw [step, hin, fetch_of_decode_instr hdec]

/-! ### The reset state -/

/-- The reset tables have the sizes of the parameters, every mask is 0 and every slot is free (10_state.md R35). -/
theorem State.Inv.resetOf {p : Params} (hp : p.Admitted) : (State.resetOf p).Inv := by
  refine ⟨hp, List.length_replicate, List.length_replicate, ?masks, ?slots⟩
  case masks => simp [State.resetOf]
  case slots => rfl

/-- Settles O11: `State.reset` is the reset state of one admitted block. -/
theorem resetShape : Obligations.ResetShape :=
  ⟨State.Inv.resetOf (p := Params.standard) (by decide), fun _ => State.Inv.resetOf⟩

/-! ### The parameters (00_scope.md R7) -/

/-- No form of a command's answered state writes the parameters. -/
theorem exec_answered_params {i : Instr} {s t : State} (h : answered (exec i s) = some t) : t.params = s.params := by
  obtain ⟨_, _, _, _, rfl, -⟩ | ⟨_, rfl, -⟩ | ⟨_, _, -, rfl, -⟩ | ⟨_, -, rfl⟩ | ⟨_, _, -, -, -, rfl⟩ |
    ⟨_, _, -, -, -, rfl⟩ | ⟨_, _, _, -, -, rfl, -⟩ | ⟨_, _, -, -, rfl⟩ | ⟨_, _, -, -, rfl⟩ := exec_answered_cases h <;>
    simp

/-- Settles O14, by the five things a step can do. -/
theorem paramsFixed : Obligations.ParamsFixed := by
  intro s t h
  obtain ⟨-, hs⟩ | ⟨rest, -, hs⟩ | ⟨i, rest, -, hs⟩ | ⟨c, rest, -, hs⟩ | ⟨-, hs⟩ := step_cases s <;> rw [hs] at h
  · cases h; rfl
  · cases h; rfl
  · exact exec_answered_params (s := { s with inputs := rest }) h
  · cases h; rfl
  · cases h

/-! ### The domain of the commands (00_scope.md R9, 30_encoding.md R77 cases 4 and 5) -/

/-- A known handle gives EN.MB and DIS.MB a next state, whatever the mailbox index is. -/
theorem writeMailboxBit_next {s : State} {l : Byte} (b : Bool) (m : Byte) (hl : l.toNat < s.params.nl) :
    ∃ t, writeMailboxBit b l m s = .next t := by
  rcases Nat.lt_or_ge m.toNat s.params.nf with hm | hm
  · exact ⟨_, writeMailboxBit_in b hl hm⟩
  · exact ⟨_, writeMailboxBit_badMailbox b hl hm⟩

/-- A well-formed command has a next state. -/
theorem exec_next_of_wellFormed {i : Instr} {s : State} (h : WellFormed s.params i = true) :
    ∃ t, exec i s = .next t := by
  cases i with
  | synId | synIdm | synRng | watchAll | watchId | watchIdm | watchRng | setGcb | rdDrop => exact ⟨_, rfl⟩
  | setMbcb m w =>
    rcases Nat.lt_or_ge m.toNat s.params.nf with hm | hm
    · exact ⟨_, exec_setMbcb_in w hm⟩
    · exact ⟨_, exec_setMbcb_out w hm⟩
  | clrMbcb m =>
    rcases Nat.lt_or_ge m.toNat s.params.nf with hm | hm
    · exact ⟨_, exec_clrMbcb_in hm⟩
    · exact ⟨_, exec_clrMbcb_out hm⟩
  | attach l =>
    have hl := of_decide_eq_true h
    cases hk : s.firstFree with
    | none => exact ⟨_, exec_attach_full hl hk⟩
    | some k => exact ⟨_, exec_attach_free hl hk⟩
  | detach l =>
    have hl := of_decide_eq_true h
    cases hk : s.firstHolding l with
    | none => exact ⟨_, exec_detach_notFound hl hk⟩
    | some k => exact ⟨_, exec_detach_found hl hk⟩
  | enMb l m => exact writeMailboxBit_next true m (of_decide_eq_true h)
  | disMb l m => exact writeMailboxBit_next false m (of_decide_eq_true h)
  | enGen l => exact ⟨_, writeGeneralBit_in true (of_decide_eq_true h)⟩
  | disGen l => exact ⟨_, writeGeneralBit_in false (of_decide_eq_true h)⟩
  | isEn l j =>
    obtain ⟨hl, hj⟩ := (Bool.and_eq_true _ _).mp h
    exact ⟨_, exec_isEn_in (of_decide_eq_true hl) (of_decide_eq_true hj)⟩
  | dispatch m f => exact ⟨_, exec_dispatch_in f (of_decide_eq_true h)⟩

/-- A command that is not well formed raises Illegal. -/
theorem exec_raises_of_not_wellFormed {i : Instr} {s : State} (h : WellFormed s.params i = false) :
    ∃ c, exec i s = raiseIllegal c s := by
  have bound {a b : Nat} (hd : decide (a < b) = false) : b ≤ a := Nat.le_of_not_lt (of_decide_eq_false hd)
  cases i with
  | synId | synIdm | synRng | watchAll | watchId | watchIdm | watchRng | setMbcb | clrMbcb | setGcb | rdDrop => cases h
  | attach l => exact ⟨_, exec_attach_out (bound h)⟩
  | detach l => exact ⟨_, exec_detach_out (bound h)⟩
  | enMb l m => exact ⟨_, writeMailboxBit_out true m (bound h)⟩
  | disMb l m => exact ⟨_, writeMailboxBit_out false m (bound h)⟩
  | enGen l => exact ⟨_, writeGeneralBit_out true (bound h)⟩
  | disGen l => exact ⟨_, writeGeneralBit_out false (bound h)⟩
  | isEn l j =>
    rcases Nat.lt_or_ge l.toNat s.params.nl with hl | hl
    · have hj : ¬ j.toNat ≤ s.params.nf := by simpa [WellFormed, hl] using h
      exact ⟨_, exec_isEn_badBit hl (Nat.lt_of_not_le hj)⟩
    · exact ⟨_, exec_isEn_out j hl⟩
  | dispatch m f => exact ⟨_, exec_dispatch_out f (bound h)⟩

/-- Settles O19: `raiseIllegal` answers 0xFF and changes nothing else (60_exceptions.md R203). -/
theorem meaningExactlyInDomain : Obligations.MeaningExactlyInDomain :=
  fun _ _ => ⟨exec_next_of_wellFormed, exec_raises_of_not_wellFormed⟩

end Sys2Proof.Machine

namespace Sys2Proof.Machine

/-! ### What the hardware answers after one step (00_scope.md R8, 70_reset_and_hazards.md R231) -/

/-- Only a reset input at the front of the stream is taken as a reset. -/
theorem fetch_eq_reset {inp rest : List Input} (h : fetch inp = .reset rest) : inp = .reset :: rest := by
  match inp with
  | [] => cases h
  | .reset :: _ => cases h; rfl
  | .word w :: tail =>
    rw [fetch_word] at h
    split at h
    · cases h
    · cases h
    · split at h <;> cases h

/-- The four forms of the state after a step that the hardware has answered: idle, the reset input, a command, and a packet
that is Illegal by its header. -/
theorem step_answered_cases {s t : State} (h : answered (step s) = some t) :
    t = s ∨
    (∃ rest, s.inputs = .reset :: rest ∧ t = { s.applyReset with inputs := rest }) ∨
    (∃ i rest, answered (exec i { s with inputs := rest }) = some t) ∨
    (∃ rest, t = State.reply { s with inputs := rest } .illegal 0 0 0) := by
  obtain ⟨-, hs⟩ | ⟨rest, hf, hs⟩ | ⟨i, rest, -, hs⟩ | ⟨c, rest, -, hs⟩ | ⟨-, hs⟩ := step_cases s <;> rw [hs] at h
  · cases h; exact .inl rfl
  · cases h; exact .inr (.inl ⟨rest, fetch_eq_reset hf, rfl⟩)
  · exact .inr (.inr (.inl ⟨i, rest, h⟩))
  · cases h; exact .inr (.inr (.inr ⟨rest, rfl⟩))
  · cases h

/-! ### The shape of the state (10_state.md R24, R32) -/

/-- The shape does not depend on what stands at the command port. -/
theorem State.Inv.withInputs {s : State} (h : s.Inv) (inp : List Input) : State.Inv { s with inputs := inp } :=
  h.of_eq rfl rfl rfl rfl

theorem State.Inv.replyOk {s : State} (h : s.Inv) : s.replyOk.Inv := h.reply .ok 0 0 0

/-- Every command keeps the shape: each form of its answered state is made of operations that do. The two that write a
bounded field are ATTACH, whose handle is below NL, and the mask writes, whose bit is at most NF. -/
theorem exec_answered_inv {i : Instr} {s t : State} (hs : s.Inv) (h : answered (exec i s) = some t) : t.Inv := by
  obtain ⟨st, r0, r1, r2, rfl, -⟩ | ⟨f, rfl, -⟩ | ⟨m, v, -, rfl, -⟩ | ⟨w, -, rfl⟩ | ⟨l, k, -, hl, -, rfl⟩ |
    ⟨l, k, -, -, -, rfl⟩ | ⟨l, j, b, -, hj, rfl, -⟩ | ⟨m, f, -, -, rfl⟩ | ⟨m, f, -, -, rfl⟩ := exec_answered_cases h
  · exact hs.reply st r0 r1 r2
  · exact hs.watch f
  · exact (hs.setMbcbAt m v).replyOk
  · exact (hs.setGcb w).replyOk
  · have hslot : (s.setSlot k (some l)).Inv := hs.setSlot k _ fun _ e => Option.some.inj e ▸ State.isListener_iff.1 hl
    exact (hslot.setMask l 0 (by simp)).replyOk
  · exact (hs.setSlot k none nofun).replyOk
  · exact (hs.setMaskBit l j b hj).replyOk
  · exact hs.countDrop.reply _ _ _ _
  · exact (hs.emit _).reply _ _ _ _

/-- Settles O12, by the four forms of the state after a step. -/
theorem stepKeepsShape : Obligations.StepKeepsShape := by
  intro s t hs h
  obtain rfl | ⟨rest, -, rfl⟩ | ⟨i, rest, hi⟩ | ⟨rest, rfl⟩ := step_answered_cases h
  · exact hs
  · exact hs.applyReset.withInputs rest
  · exact exec_answered_inv (hs.withInputs rest) hi
  · exact (hs.withInputs rest).reply .illegal 0 0 0

/-- A valid slot holds a handle below NL (R32 (a)). -/
theorem State.Inv.slot_lt {s : State} (h : s.Inv) {i : Fin 4} {l : Byte} (hi : s.slots[i] = some l) :
    l.toNat < s.params.nl := by
  obtain ⟨-, -, -, -, hslots⟩ := h
  have hmem := List.all_eq_true.1 hslots _ (mem_slots.2 ⟨i, hi⟩)
  exact of_decide_eq_true hmem

/-- There are NL masks (R24). -/
theorem State.Inv.lmask_length {s : State} (h : s.Inv) : s.lmask.length = s.params.nl := by
  obtain ⟨-, -, hlen, -, -⟩ := h
  exact hlen

/-- A mask bit above NF is 0 (R32 (b)). -/
theorem State.Inv.maskBit_eq_false {s : State} (h : s.Inv) (l : Byte) {j : Nat} (hj : s.params.nf < j) :
    s.maskBit l j = false :=
  Nat.testBit_lt_two_pow (Nat.lt_of_lt_of_le (h.maskAt_lt l) (Nat.pow_le_pow_right (by decide) hj))

/-- There are only four slots (R32 (d)). -/
theorem State.validSlots_le (s : State) : s.validSlots ≤ 4 :=
  Nat.le_trans List.countP_le_length (Nat.le_of_eq s.slots.length_toList)

/-! ### Reachable states (10_state.md R32) -/

/-- A run keeps the parameters it starts with. -/
theorem Reachable.params_eq {p : Params} {s : State} (hs : Reachable p s) : s.params = p := by
  induction hs with
  | start inp drv => rfl
  | step _ ht ih => exact (paramsFixed _ _ (answered_of_next ht)).trans ih

/-- Every reachable state has the shape: reset has it and every step keeps it. -/
theorem Reachable.inv {p : Params} (hp : p.Admitted) {s : State} (hs : Reachable p s) : s.Inv := by
  induction hs with
  | start inp drv => exact (State.Inv.resetOf hp).of_eq rfl rfl rfl rfl
  | step _ ht ih => exact stepKeepsShape _ _ ih (answered_of_next ht)

/-- A command leaves GCB as it is or registers a handler there (R26). -/
theorem exec_answered_gcb {i : Instr} {s t : State} (h : answered (exec i s) = some t) :
    t.gcb = s.gcb ∨ ∃ w, t.gcb = some w := by
  obtain ⟨_, _, _, _, rfl, -⟩ | ⟨_, rfl, -⟩ | ⟨_, _, -, rfl, -⟩ | ⟨w, -, rfl⟩ | ⟨_, _, -, -, -, rfl⟩ |
    ⟨_, _, -, -, -, rfl⟩ | ⟨_, _, _, -, -, rfl, -⟩ | ⟨_, _, -, -, rfl⟩ | ⟨_, _, -, -, rfl⟩ := exec_answered_cases h
  case inr.inr.inr.inl => exact .inr ⟨w, rfl⟩
  all_goals exact .inl (by simp)

/-- Only the reset input takes `GCB.v` from 1 to 0 (R32 (c)). -/
theorem step_clears_gcb {s t : State} (h : answered (step s) = some t) (hs : s.gcb ≠ none) (ht : t.gcb = none) :
    ∃ rest, s.inputs = .reset :: rest := by
  obtain rfl | ⟨rest, hin, -⟩ | ⟨i, rest, hi⟩ | ⟨rest, rfl⟩ := step_answered_cases h
  · exact absurd ht hs
  · exact ⟨rest, hin⟩
  · obtain he | ⟨w, hw⟩ := exec_answered_gcb hi
    · exact absurd (he.symm.trans ht) hs
    · cases hw.symm.trans ht
  · exact absurd ht hs

/-- Settles O13: (a), (b) and (d) from the shape of a reachable state, (c) from the forms of a step. -/
theorem reachableInvariants : Obligations.ReachableInvariants := by
  intro p s hp hs
  have hinv := hs.inv hp
  obtain rfl := hs.params_eq
  refine ⟨fun _ _ => hinv.slot_lt, ⟨hinv.lmask_length, fun l _ => hinv.maskBit_eq_false l⟩, ?gcb, s.validSlots_le⟩
  case gcb => exact fun _ ht => step_clears_gcb (answered_of_next ht)

/-! ### The reset values (10_state.md R35) -/

/-- An entry of the reset MBCB is empty, and so is an index that names no entry. -/
theorem State.resetOf_mbcbAt (p : Params) (m : Byte) : (State.resetOf p).mbcbAt m = none :=
  List.getElem?_getD_replicate_default_eq _ _ _

/-- Every mask of the reset state is 0. -/
theorem State.resetOf_maskAt (p : Params) (l : Byte) : (State.resetOf p).maskAt l = 0 :=
  List.getElem?_getD_replicate_default_eq _ _ _

/-- Settles O10: the tables are read entry by entry, the other fields are as written in `State.resetOf`. -/
theorem resetValues : Obligations.ResetValues := by
  intro p
  refine ⟨rfl, List.length_replicate, State.resetOf_mbcbAt p, rfl, rfl, ?slots, List.length_replicate, ?masks, rfl⟩
  case slots => simp [State.resetOf, Fin.forall_fin_succ]
  case masks => simp [State.maskBit, State.resetOf_maskAt]

end Sys2Proof.Machine

namespace Sys2Proof.Machine

/-! ### The payload views (20_memory.md R54) -/

/-- A word is its four bytes, the least significant one last. -/
theorem word_eq_bytes (w : Word) :
    w.extractLsb' 24 8 ++ w.extractLsb' 16 8 ++ w.extractLsb' 8 8 ++ w.extractLsb' 0 8 = w := by
  rw [BitVec.extractLsb'_append_extractLsb'_eq_extractLsb' (by rfl),
    BitVec.extractLsb'_append_extractLsb'_eq_extractLsb' (by rfl),
    BitVec.extractLsb'_append_extractLsb'_eq_extractLsb' (by rfl)]
  exact BitVec.extractLsb'_eq_self

/-- Four bytes in a row are two 16-bit words in a row. -/
theorem bytes_eq_halves (b3 b2 b1 b0 : Byte) : b3 ++ b2 ++ b1 ++ b0 = (b3 ++ b2) ++ (b1 ++ b0) :=
  BitVec.append_assoc

/-- Payload byte i of the first half is byte i of FW4. -/
theorem frameByte_low (f : Frame) (i : Fin 4) :
    frameByte f ⟨i.val, by omega⟩ = f.fw4.extractLsb' (8 * i.val) 8 := if_pos i.isLt

/-- Payload byte i + 4 is byte i of FW5. -/
theorem frameByte_high (f : Frame) (i : Fin 4) :
    frameByte f ⟨i.val + 4, by omega⟩ = f.fw5.extractLsb' (8 * i.val) 8 := by
  rw [frameByte, if_neg (Nat.not_lt.2 (Nat.le_add_left 4 i.val)), Nat.add_sub_cancel]

/-- Settles O60: the bytes of FW4 and FW5, put together again. -/
theorem payloadViews : Obligations.PayloadViews := by
  intro f
  refine ⟨word_eq_bytes f.fw4, word_eq_bytes f.fw5, bytes_eq_halves _ _ _ _, bytes_eq_halves _ _ _ _, fun i => ?low,
    fun i => ?high, rfl, rfl, rfl, rfl⟩
  case low => rw [frameByte_low, BitVec.setWidth_ushiftRight_eq_extractLsb]
  case high => rw [frameByte_high, BitVec.setWidth_ushiftRight_eq_extractLsb]

/-! ### What has been sent (20_memory.md R60, 30_encoding.md R70) -/

/-- A command sends one response, and whatever events it sends come after those sent before. -/
theorem exec_answered_outputs {i : Instr} {s t : State} (h : answered (exec i s) = some t) :
    ∃ r es, t.responses = s.responses ++ [r] ∧ t.events = s.events ++ es := by
  obtain ⟨_, _, _, _, rfl, -⟩ | ⟨_, rfl, -⟩ | ⟨_, _, -, rfl, -⟩ | ⟨_, -, rfl⟩ | ⟨_, _, -, -, -, rfl⟩ |
    ⟨_, _, -, -, -, rfl⟩ | ⟨_, _, _, -, -, rfl, -⟩ | ⟨_, _, -, -, rfl⟩ | ⟨_, _, -, -, rfl⟩ := exec_answered_cases h
  case inr.inl => exact ⟨_, _, State.watch_responses _ _, State.watch_events _ _⟩
  case inr.inr.inr.inr.inr.inr.inr.inr => exact ⟨_, _, rfl, rfl⟩
  all_goals exact ⟨_, [], rfl, (List.append_nil _).symm⟩

/-- Settles O17: an idle step and the reset input send nothing, a command and an Illegal packet send one response. -/
theorem stepAppendsOutputs : Obligations.StepAppendsOutputs := by
  intro s t h
  obtain rfl | ⟨rest, -, rfl⟩ | ⟨i, rest, hi⟩ | ⟨rest, rfl⟩ := step_answered_cases h
  · exact ⟨[], [], by simp⟩
  · exact ⟨[], [], by simp⟩
  · obtain ⟨r, es, hr, he⟩ := exec_answered_outputs hi
    exact ⟨[r], es, hr, he, Nat.le_refl 1, nofun⟩
  · exact ⟨_, [], rfl, (List.append_nil _).symm, Nat.le_refl 1, nofun⟩

end Sys2Proof.Machine

namespace Sys2Proof

/-- The four commands that forward a filter to the driver (45_watch.md R185). -/
def Instr.IsWatch (i : Instr) : Prop :=
  i.op = .watchAll ∨ i.op = .watchId ∨ i.op = .watchIdm ∨ i.op = .watchRng

/-- The commands that only read (20_memory.md R57). -/
def Instr.ReadOnly (i : Instr) : Prop :=
  i.op = .synId ∨ i.op = .synIdm ∨ i.op = .synRng ∨ i.op = .isEn ∨ i.op = .rdDrop

/-- The commands that write no table and not DROPS (20_memory.md R56). -/
def Instr.WritesNothing (i : Instr) : Prop :=
  i.ReadOnly ∨ i.IsWatch

end Sys2Proof

namespace Sys2Proof.Machine

/-! ### What each command may change (20_memory.md R56) -/

/-- The tables, DROPS and the events change only in the commands that R56 lets write them, and no command touches the
command port. -/
theorem exec_answered_writes {i : Instr} {s t : State} (h : answered (exec i s) = some t) :
    t.inputs = s.inputs ∧
    (t.mbcb ≠ s.mbcb → i.op = .setMbcb ∨ i.op = .clrMbcb) ∧
    (t.gcb ≠ s.gcb → i.op = .setGcb) ∧
    (t.slots ≠ s.slots → i.op = .attach ∨ i.op = .detach) ∧
    (t.lmask ≠ s.lmask → i.op = .attach ∨ i.op = .enMb ∨ i.op = .disMb ∨ i.op = .enGen ∨ i.op = .disGen) ∧
    (t.drops ≠ s.drops → i.op = .dispatch) ∧
    (t.events ≠ s.events →
      i.op = .watchAll ∨ i.op = .watchId ∨ i.op = .watchIdm ∨ i.op = .watchRng ∨ i.op = .dispatch) := by
  obtain ⟨st, r0, r1, r2, rfl, -⟩ | ⟨f, rfl, hop⟩ | ⟨m, v, -, rfl, hop⟩ | ⟨w, rfl, rfl⟩ | ⟨l, k, rfl, -, -, rfl⟩ |
    ⟨l, k, rfl, -, -, rfl⟩ | ⟨l, j, b, -, -, rfl, hop⟩ | ⟨m, f, rfl, -, rfl⟩ | ⟨m, f, rfl, -, rfl⟩ :=
    exec_answered_cases h
  case inr.inl =>
    have hev : i.op = .watchAll ∨ i.op = .watchId ∨ i.op = .watchIdm ∨ i.op = .watchRng ∨ i.op = .dispatch := by tauto
    simp [hev]
  case inr.inr.inl => simp [hop]
  case inr.inr.inr.inr.inr.inr.inl => simp [hop]
  all_goals simp

/-- A command that is no WATCH command leaves the driver's port alone. -/
theorem exec_answered_port {i : Instr} {s t : State} (hi : ¬ i.IsWatch) (h : answered (exec i s) = some t) :
    t.drvIn = s.drvIn ∧ t.drvDraws = s.drvDraws := by
  obtain ⟨_, _, _, _, rfl, -⟩ | ⟨_, rfl, hop⟩ | ⟨_, _, -, rfl, -⟩ | ⟨_, -, rfl⟩ | ⟨_, _, -, -, -, rfl⟩ |
    ⟨_, _, -, -, -, rfl⟩ | ⟨_, _, _, -, -, rfl, -⟩ | ⟨_, _, -, -, rfl⟩ | ⟨_, _, -, -, rfl⟩ := exec_answered_cases h
  case inr.inl => exact absurd hop hi
  all_goals exact ⟨rfl, rfl⟩

/-- A WATCH command forwards some filter. -/
theorem exec_of_isWatch {i : Instr} (hi : i.IsWatch) (s : State) : ∃ f, exec i s = .next (s.watch f) := by
  cases i with
  | watchAll | watchId | watchIdm | watchRng => exact ⟨_, rfl⟩
  | _ => simp [Instr.IsWatch] at hi

/-- Taking the driver's reply removes the word at the port, or draws a free value where none stands there. -/
theorem State.takeDrvStat_port (s : State) :
    s.takeDrvStat.drvIn = s.drvIn.tail ∧
      s.takeDrvStat.drvDraws = if s.drvIn = [] then s.drvDraws + 1 else s.drvDraws := by
  cases h : s.drvIn with
  | nil => rw [(State.drvStat_nil h).2]; exact ⟨h, rfl⟩
  | cons d rest => rw [(State.drvStat_cons h).2]; exact ⟨rfl, rfl⟩

/-- Settles O15: the forms of a command's answered state, and at the driver's port whether the command is a WATCH. -/
theorem commandWrites : Obligations.CommandWrites := by
  intro i s t h
  obtain ⟨hinputs, hmbcb, hgcb, hslots, hlmask, hdrops, hevents⟩ := exec_answered_writes h
  refine ⟨exec_answered_params h, hinputs, hmbcb, hgcb, hslots, hlmask, hdrops, hevents, ?port⟩
  split
  case isTrue hi =>
    obtain ⟨f, hf⟩ := exec_of_isWatch hi s
    rw [hf] at h
    cases h
    rw [State.watch_drvIn, State.watch_drvDraws]
    exact s.takeDrvStat_port
  case isFalse hi => exact exec_answered_port hi h

/-! ### Reads (20_memory.md R57) -/

/-- What the read-only commands read has not changed from `s` to `t`. -/
structure State.SameReads (s t : State) : Prop where
  params : t.params = s.params
  lmask : t.lmask = s.lmask
  drops : t.drops = s.drops

theorem State.SameReads.refl (s : State) : s.SameReads s := ⟨rfl, rfl, rfl⟩

theorem State.SameReads.trans {s t u : State} (h : s.SameReads t) (h' : t.SameReads u) : s.SameReads u :=
  ⟨h'.params.trans h.params, h'.lmask.trans h.lmask, h'.drops.trans h.drops⟩

theorem State.SameReads.maskBit {s t : State} (h : s.SameReads t) (l : Byte) (j : Nat) :
    t.maskBit l j = s.maskBit l j := by
  rw [State.maskBit, State.maskAt, h.lmask]; rfl

/-- A read-only command sends one response, which depends on what it reads alone, and does nothing else. -/
theorem exec_of_readOnly {i : Instr} (hi : i.ReadOnly) (s : State) :
    ∃ r : Response, ∀ t, s.SameReads t → answered (exec i t) = some { t with responses := t.responses ++ [r] } := by
  cases i with
  | synId | synIdm | synRng => exact ⟨_, fun _ _ => rfl⟩
  | rdDrop => exact ⟨⟨.ok, s.drops, 0, 0⟩, fun t ht => by rw [← ht.drops]; rfl⟩
  | isEn l j =>
    rcases Nat.lt_or_ge l.toNat s.params.nl with hl | hl
    · rcases Nat.lt_or_ge s.params.nf j.toNat with hj | hj
      · exact ⟨_, fun t ht => congrArg answered (exec_isEn_badBit (ht.params ▸ hl) (ht.params ▸ hj))⟩
      · exact ⟨⟨.ok, boolWord (s.maskBit l j.toNat), 0, 0⟩, fun t ht => by
          rw [exec_isEn_in (ht.params ▸ hl) (ht.params ▸ hj), ht.maskBit]; rfl⟩
    · exact ⟨_, fun t ht => congrArg answered (exec_isEn_out j (ht.params ▸ hl))⟩
  | _ => simp [Instr.ReadOnly] at hi

/-- A command that writes nothing leaves what the read-only commands read. -/
theorem exec_sameReads {i : Instr} {s t : State} (hi : i.WritesNothing) (h : answered (exec i s) = some t) :
    s.SameReads t := by
  obtain hi | hi := hi
  · obtain ⟨r, hr⟩ := exec_of_readOnly hi s
    cases h.symm.trans (hr s (.refl s))
    exact ⟨rfl, rfl, rfl⟩
  · obtain ⟨f, hf⟩ := exec_of_isWatch hi s
    rw [hf] at h
    cases h
    exact ⟨State.watch_params s f, State.watch_lmask s f, State.watch_drops s f⟩

theorem nextOf_eq_some {o : Outcome} {t : State} : nextOf o = some t ↔ o = .next t := by
  cases o <;> simp [nextOf]

/-- Nor does any number of such commands change it. -/
theorem execAll_sameReads {is : List Instr} {s t : State} (his : ∀ i ∈ is, i.WritesNothing)
    (h : execAll is s = some t) : s.SameReads t := by
  induction is generalizing s with
  | nil => cases h; exact .refl _
  | cons i is ih =>
    obtain ⟨hi, his⟩ := List.forall_mem_cons.1 his
    obtain ⟨v, hv, h⟩ := Option.bind_eq_some_iff.1 h
    exact (exec_sameReads hi (answered_of_next (nextOf_eq_some.1 hv))).trans (ih his h)

theorem lastResponse_of_answered {o : Outcome} {s : State} {r : Response}
    (h : answered o = some { s with responses := s.responses ++ [r] }) : lastResponse o = some r := by
  rw [lastResponse, h]; exact List.getLast?_concat

/-- Settles O57: what the command reads is the same before the commands in between and after them. -/
theorem readsHaveNoSideEffect : Obligations.ReadsHaveNoSideEffect := by
  intro i between s t u readOnly writesNothing hi hbetween ht hu
  obtain ⟨r, hr⟩ := exec_of_readOnly hi s
  have hs := hr s (.refl s)
  have hsu : s.SameReads u := (exec_sameReads (.inl hi) (answered_of_next ht)).trans (execAll_sameReads hbetween hu)
  refine ⟨?_, (lastResponse_of_answered (hr u hsu)).trans (lastResponse_of_answered hs).symm⟩
  cases (answered_of_next ht).symm.trans hs
  rfl

end Sys2Proof.Machine

namespace Sys2Proof

/-! ### The header fields and the rows (30_encoding.md R71, R76, R77) -/

/-- A header whose `RSV` is 0 is the header word of its own fields. -/
theorem headerWord_of_fields {o : Op} {h : Word} (hop : o.code = hdrOp h) (hrsv : hdrRsv h = 0) :
    headerWord o (hdrLid h) (hdrIdx h) = h :=
  header_ext (by simp [hop]) (by simp) (by simp) (by simp [hrsv])

/-- Two header words are equal exactly when their four fields are. -/
theorem header_ext_iff {g h : Word} :
    g = h ↔ hdrOp g = hdrOp h ∧ hdrIdx g = hdrIdx h ∧ hdrLid g = hdrLid h ∧ hdrRsv g = hdrRsv h :=
  ⟨fun e => e ▸ ⟨rfl, rfl, rfl, rfl⟩, fun ⟨hop, hidx, hlid, hrsv⟩ => header_ext hop hidx hlid hrsv⟩

theorem hdrOp_and (g h : Word) : hdrOp (g &&& h) = hdrOp g &&& hdrOp h := BitVec.extractLsb'_and
theorem hdrIdx_and (g h : Word) : hdrIdx (g &&& h) = hdrIdx g &&& hdrIdx h := BitVec.extractLsb'_and
theorem hdrLid_and (g h : Word) : hdrLid (g &&& h) = hdrLid g &&& hdrLid h := BitVec.extractLsb'_and
theorem hdrRsv_and (g h : Word) : hdrRsv (g &&& h) = hdrRsv g &&& hdrRsv h := BitVec.extractLsb'_and

/-- The `mask` column field by field: `OP` and `RSV` are checked, `IDX` and `LID` where the row does not use them. -/
theorem Op.mask_fields (o : Op) :
    hdrOp o.mask = BitVec.allOnes 8 ∧ hdrIdx o.mask = (if o.usesIdx then 0 else BitVec.allOnes 8) ∧
      hdrLid o.mask = (if o.usesLid then 0 else BitVec.allOnes 8) ∧ hdrRsv o.mask = BitVec.allOnes 8 := by
  cases o <;> decide

/-- The `match` column field by field: the row's opcode, and 0 in the other fields. -/
theorem Op.pattern_fields (o : Op) :
    hdrOp o.pattern = o.code ∧ hdrIdx o.pattern = 0 ∧ hdrLid o.pattern = 0 ∧ hdrRsv o.pattern = 0 := by
  cases o <;> decide

/-- A field under its bits of the `mask` column is 0 exactly when it is 0 or used. -/
theorem masked_eq_zero_iff (b : Byte) (used : Bool) :
    b &&& (if used then 0 else BitVec.allOnes 8) = 0 ↔ (used = false → b = 0) := by
  cases used with
  | false => rw [if_neg Bool.false_ne_true, BitVec.and_allOnes]; exact ⟨fun h _ => h, fun h => h rfl⟩
  | true => simp

/-- A row matches a header exactly when the header has the row's opcode and passes the field checks of R77. -/
theorem matches_row_iff {o : Op} {h : Word} :
    h &&& o.mask = o.pattern ↔ o.code = hdrOp h ∧ headerFault o h = none := by
  obtain ⟨mop, midx, mlid, mrsv⟩ := o.mask_fields
  obtain ⟨pop, pidx, plid, prsv⟩ := o.pattern_fields
  rw [header_ext_iff, hdrOp_and, hdrIdx_and, hdrLid_and, hdrRsv_and, mop, midx, mlid, mrsv, pop, pidx, plid, prsv,
    masked_eq_zero_iff, masked_eq_zero_iff, BitVec.and_allOnes, BitVec.and_allOnes, headerFault_eq_none]
  exact ⟨fun ⟨op, idx, lid, rsv⟩ => ⟨op.symm, rsv, idx, lid⟩, fun ⟨op, rsv, idx, lid⟩ => ⟨op.symm, idx, lid, rsv⟩⟩

theorem Op.eq_of_code_eq {o o' : Op} (h : o.code = o'.code) : o = o' :=
  Option.some.inj ((Op.ofCode_code o).symm.trans ((congrArg Op.ofCode h).trans (Op.ofCode_code o')))

/-! ### The operand words (30_encoding.md R72, R74) -/

/-- The first words of a list long enough, one by one. -/
theorem take_eq_map_getD {k : Nat} {ws : List Word} (hk : k ≤ ws.length) :
    ws.take k = (List.range k).map fun j => ws.getD j 0 := by
  apply List.ext_getElem
  · simp [hk]
  · intro j hj _
    simp only [List.length_take, lt_inf_iff] at hj
    simp [hj.2]

/-- The packet of a command built from a header and operand words: the header fields its row uses, and as many operand
words as its format has. -/
theorem encode_buildInstr (o : Op) (h : Word) (ws : List Word) :
    encode (buildInstr o h ws) =
      headerWord o (if o.usesLid then hdrLid h else 0) (if o.usesIdx then hdrIdx h else 0) ::
        (List.range (o.format.words - 1)).map fun j => ws.getD j 0 := by
  cases o <;> rfl

/-- A command's packet is a header of its row, 0 in the fields the row does not use, and operand words from which the
command is built again. -/
theorem encode_shape (i : Instr) :
    ∃ l x ws, encode i = headerWord i.op l x :: ws ∧ (i.op.usesIdx = false → x = 0) ∧
      (i.op.usesLid = false → l = 0) ∧ buildInstr i.op (headerWord i.op l x) ws = i := by
  cases i with
  | synId | synIdm | synRng | watchAll | watchId | watchIdm | watchRng | setGcb | rdDrop =>
    exact ⟨_, _, _, rfl, fun _ => rfl, fun _ => rfl, rfl⟩
  | setMbcb | clrMbcb | dispatch => exact ⟨_, _, _, rfl, nofun, fun _ => rfl, by simp [buildInstr, frameOf]⟩
  | attach | detach | enGen | disGen => exact ⟨_, _, _, rfl, fun _ => rfl, nofun, by simp [buildInstr]⟩
  | enMb | disMb | isEn => exact ⟨_, _, _, rfl, nofun, nofun, by simp [buildInstr]⟩

/-! ### Decoding and encoding -/

/-- What a word list that decodes to a command looks like. -/
theorem decode_eq_instr {ws : List Word} {i : Instr} {n : Nat} (hd : decode ws = .instr i n) :
    ∃ h ops o, ws = h :: ops ∧ o.code = hdrOp h ∧ o.format.words ≤ ops.length + 1 ∧ headerFault o h = none ∧
      i = buildInstr o h ops ∧ n = o.format.words := by
  cases ws with
  | nil => cases hd
  | cons h ops =>
    rw [decode] at hd
    split at hd
    case h_1 => cases hd
    case h_2 o ho =>
      split at hd
      case isTrue => cases hd
      case isFalse hlen =>
        split at hd
        case h_1 => cases hd
        case h_2 hf =>
          cases hd
          exact ⟨h, ops, o, rfl, Op.code_of_ofCode ho, Nat.le_of_not_lt hlen, hf, rfl, rfl⟩

/-- Decoding a header that passes the checks of its row, with enough operand words. -/
theorem decode_of_row {h : Word} {ws : List Word} {o : Op} (ho : o.code = hdrOp h) (hf : headerFault o h = none)
    (hw : o.format.words ≤ ws.length + 1) : decode (h :: ws) = .instr (buildInstr o h ws) o.format.words := by
  rw [decode_of_op (Op.ofCode_eq_some.2 ho) hw, hf]

/-- Decoding a header of an assigned opcode that fails the checks of its row, with enough operand words. -/
theorem decode_of_headerFault {h : Word} {ws : List Word} {o : Op} {c : IllegalCase} (ho : o.code = hdrOp h)
    (hf : headerFault o h = some c) (hw : o.format.words ≤ ws.length + 1) :
    decode (h :: ws) = .illegal c o.format.words := by
  rw [decode_of_op (Op.ofCode_eq_some.2 ho) hw, hf]

/-- A command's own packet decodes to that command. -/
theorem decode_encode (i : Instr) : decode (encode i) = .instr i (encode i).length := by
  have hlen := encode_length i
  obtain ⟨l, x, ws, he, hx, hl, hb⟩ := encode_shape i
  have hf : headerFault i.op (headerWord i.op l x) = none := headerFault_eq_none.2 (by simpa using ⟨hx, hl⟩)
  rw [hlen, he, decode_of_row (by simp) hf (by rw [← hlen, he]; rfl), hb]

/-- Settles O2: the words behind a whole packet are not read. -/
theorem decodeOfEncode : Obligations.DecodeOfEncode := by
  intro i rest
  rw [decode_append rest (by rw [decode_encode]; nofun), decode_encode]

/-- A header that passes the checks of its row is the header word of the fields its row uses. -/
theorem headerWord_of_headerFault_none {o : Op} {h : Word} (ho : o.code = hdrOp h) (hf : headerFault o h = none) :
    headerWord o (if o.usesLid then hdrLid h else 0) (if o.usesIdx then hdrIdx h else 0) = h := by
  obtain ⟨hrsv, hidx, hlid⟩ := headerFault_eq_none.1 hf
  have used {u : Bool} {b : Byte} (hb : u = false → b = 0) : (if u then b else 0) = b := by
    cases u with
    | false => exact (hb rfl).symm
    | true => rfl
  rw [used hidx, used hlid, headerWord_of_fields ho hrsv]

/-- Settles O3: a command is encoded to the header fields and operand words it was built from. -/
theorem encodeOfDecode : Obligations.EncodeOfDecode := by
  intro ws i n hd
  obtain ⟨h, ops, o, rfl, ho, hlen, hf, rfl, rfl⟩ := decode_eq_instr hd
  refine ⟨?_, by rw [encode_length, buildInstr_op]⟩
  rw [encode_buildInstr, headerWord_of_headerFault_none ho hf, ← take_eq_map_getD (by omega),
    List.take_cons o.format.words_pos]

/-- Settles O4: a header decodes to a command of the row exactly when it has the row's opcode and passes its checks. -/
theorem headerSelectsRow : Obligations.HeaderSelectsRow := by
  refine ⟨fun h ws o hw => ?row, fun h o o' hm hm' => ?unique⟩
  case row =>
    rw [matches_row_iff]
    constructor
    · rintro ⟨i, hd, rfl⟩
      obtain ⟨_, _, o, he, ho, -, hf, rfl, -⟩ := decode_eq_instr hd
      cases he
      rw [buildInstr_op]
      exact ⟨ho, hf⟩
    · rintro ⟨ho, hf⟩
      exact ⟨_, decode_of_row ho hf hw, buildInstr_op o h ws⟩
  case unique =>
    exact Op.eq_of_code_eq ((matches_row_iff.1 hm).1.trans (matches_row_iff.1 hm').1.symm)

/-! ### The worked encodings (30_encoding.md R84) -/

/-- Settles O1: the printed words decode to their commands because they are the commands' packets. -/
theorem workedEncodings : Obligations.WorkedEncodings := by
  refine ⟨⟨rfl, rfl, rfl, rfl, rfl, rfl, rfl, fun _ => rfl, rfl⟩, ?_, fun w => ⟨?_, ?_⟩⟩
  · exact ⟨decode_encode (.synId 0x123), decode_encode (.synRng 0x100 0x10F), decode_encode (.setMbcb 2 0xCAFE0002),
      decode_encode (.attach 3), decode_encode (.enMb 3 2), decode_encode (.enGen 3), decode_encode (.isEn 3 8),
      fun a b c d e f => decode_encode (.dispatch 2 ⟨a, b, c, d, e, f⟩), decode_encode .rdDrop⟩
  · exact decode_of_headerFault (o := .synId) (by decide) (by decide) (Nat.le_refl 2)
  · exact decode_of_headerFault (o := .synId) (by decide) (by decide) (Nat.le_refl 2)

/-! ### The five cases of R77 -/

theorem Op.mem_all (o : Op) : o ∈ Op.all := by
  cases o <;> decide

/-- The 19 assigned opcodes, as R77 case 1 lists them. -/
theorem Op.mem_codes {b : Byte} :
    b ∈ ([0x01, 0x02, 0x03, 0x08, 0x09, 0x0A, 0x0B, 0x10, 0x11, 0x12, 0x20, 0x21, 0x28, 0x29, 0x2A,
      0x2B, 0x2C, 0x30, 0x38] : List Byte) ↔ ∃ o : Op, o.code = b := by
  change b ∈ Op.all.map Op.code ↔ _
  simp [Op.mem_all]

/-- R77 case 3 for a header of row `o`: a field that the row does not use is not 0. -/
def UnusedFieldSet (o : Op) (h : Word) : Prop :=
  (o.usesIdx = false ∧ hdrIdx h ≠ 0) ∨ (o.usesLid = false ∧ hdrLid h ≠ 0)

theorem headerFault_reserved {o : Op} {h : Word} (hrsv : hdrRsv h ≠ 0) : headerFault o h = some .reservedField :=
  if_pos hrsv

theorem headerFault_unused {o : Op} {h : Word} (hrsv : hdrRsv h = 0) (hu : UnusedFieldSet o h) :
    headerFault o h = some .unusedField := by
  rw [headerFault, if_neg (not_not.2 hrsv), if_pos (by simpa [UnusedFieldSet] using hu)]

theorem headerFault_none {o : Op} {h : Word} (hrsv : hdrRsv h = 0) (hu : ¬ UnusedFieldSet o h) :
    headerFault o h = none := by
  rw [headerFault, if_neg (not_not.2 hrsv), if_neg (by simpa [UnusedFieldSet] using hu)]

/-- Cases 1 to 3 together are the same as "no row matches the header" (R77). -/
theorem no_row_matches_iff {h : Word} :
    (¬ (∃ o : Op, o.code = hdrOp h) ∨ hdrRsv h ≠ 0 ∨ ∃ o : Op, o.code = hdrOp h ∧ UnusedFieldSet o h) ↔
      ∀ o : Op, h &&& o.mask ≠ o.pattern := by
  constructor
  · rintro hcase o hm
    obtain ⟨ho, hf⟩ := matches_row_iff.1 hm
    obtain h1 | h2 | ⟨o', ho', h3⟩ := hcase
    · exact h1 ⟨o, ho⟩
    · rw [headerFault_reserved h2] at hf
      cases hf
    · cases Op.eq_of_code_eq (ho.trans ho'.symm)
      rw [headerFault_unused (headerFault_eq_none.1 hf).1 h3] at hf
      cases hf
  · intro hno
    by_contra hcase
    push Not at hcase
    obtain ⟨⟨o, ho⟩, hrsv, hu⟩ := hcase
    exact hno o (matches_row_iff.2 ⟨ho, headerFault_none hrsv (hu o ho)⟩)

theorem packetWords_of_unassigned {h : Word} (ho : ∀ o : Op, o.code ≠ hdrOp h) : packetWords h = 1 := by
  rw [packetWords, Op.ofCode_eq_none.2 ho]

theorem packetWords_of_op {h : Word} {o : Op} (ho : o.code = hdrOp h) : packetWords h = o.format.words := by
  rw [packetWords, Op.ofCode_eq_some.2 ho]

/-- A command of a row that uses `LID` is in the domain of the block when `LID` names a listener and the index is in
IS.EN's or DISPATCH's domain; the other commands always are (R77 cases 4 and 5). -/
theorem wellFormed_buildInstr {p : Params} {o : Op} {h : Word} (ws : List Word)
    (hl : o.usesLid = true → (hdrLid h).toNat < p.nl) (hi : o = .isEn → (hdrIdx h).toNat ≤ p.nf)
    (hd : o = .dispatch → (hdrIdx h).toNat < p.nf) : WellFormed p (buildInstr o h ws) = true := by
  cases o with
  | synId | synIdm | synRng | watchAll | watchId | watchIdm | watchRng | setMbcb | clrMbcb | setGcb | rdDrop => rfl
  | attach | detach | enMb | disMb | enGen | disGen => exact decide_eq_true (hl rfl)
  | isEn => exact Bool.and_eq_true_iff.2 ⟨decide_eq_true (hl rfl), decide_eq_true (hi rfl)⟩
  | dispatch => exact decide_eq_true (hd rfl)

end Sys2Proof

namespace Sys2Proof.Machine

/-! ### The packets that leave the block (30_encoding.md R78 to R81) -/

/-- The first word of a delivery packet: `MBX` in bits [15:8] and `KIND` in bits [1:0] (R80). -/
theorem deliveryHeader_eq (m : Byte) (c : BitVec 2) :
    0#16 ++ m ++ 0#6 ++ c = (m.setWidth 32 <<< 8) ||| c.setWidth 32 := by
  apply BitVec.eq_of_getLsbD_eq
  intro k hk
  simp only [BitVec.getLsbD_append, BitVec.getLsbD_zero, BitVec.getLsbD_or, BitVec.getLsbD_shiftLeft,
    BitVec.getLsbD_setWidth]
  by_cases hkind : k < 2
  · simp [hkind, hk, show k < 8 by omega]
  rw [if_neg hkind, BitVec.getLsbD_of_ge c k (Nat.le_of_not_lt hkind)]
  by_cases hzero : k < 8
  · simp [hzero, show k - 2 < 6 by omega]
  rw [if_neg (by omega), show k - 2 - 6 = k - 8 by omega]
  by_cases hmbx : k - 8 < 8
  · simp [hzero, hk, hmbx, show k - 8 < 32 by omega]
  · simp [hmbx, BitVec.getLsbD_of_ge m (k - 8) (Nat.le_of_not_lt hmbx)]

/-- Settles O59: each layout is written out, with the numbers of its first word case by case. -/
theorem packetLayouts : Obligations.PacketLayouts := by
  refine ⟨fun r => ⟨_, rfl, ?status⟩, fun k m w f => ⟨_, rfl, ?kind⟩, fun f => rfl⟩
  case status => cases r.status <;> rfl
  case kind =>
    rw [deliveryHeader_eq]
    cases k <;> rfl

/-! ### The step on a whole packet (30_encoding.md R73, R77) -/

/-- Behind a packet stands what was put there. -/
theorem drop_asInputs (ws : List Word) (rest : List Input) : (asInputs ws ++ rest).drop ws.length = rest :=
  List.drop_left' (asInputs_length ws)

/-- A packet that is Illegal by its header is answered and taken. -/
theorem step_of_illegal {s : State} {ws : List Word} {rest : List Input} {c : IllegalCase}
    (hin : s.inputs = asInputs ws ++ rest) (hd : decode ws = .illegal c ws.length) :
    step s = raiseIllegal c { s with inputs := rest } := by
  have hne : ws ≠ [] := by rintro rfl; cases hd
  rw [step, hin, fetch_asInputs hne, decode_append _ (by rw [hd]; nofun), hd]
  simp only [drop_asInputs]

/-- A command that is the whole of its packet is run, and the packet is taken. -/
theorem step_of_command {s : State} {ws : List Word} {rest : List Input} {i : Instr}
    (hin : s.inputs = asInputs ws ++ rest) (hd : decode ws = .instr i ws.length) :
    step s = exec i { s with inputs := rest } := by
  rw [stepRunsCommand s ws rest i _ hin hd, drop_asInputs]

section WholePacket

variable {s : State} {h : Word} {ws : List Word} {rest : List Input} {o : Op}
  (hin : s.inputs = asInputs (h :: ws) ++ rest) (hlen : ws.length + 1 = packetWords h)

include hin hlen

/-- A whole packet with an unassigned opcode. -/
theorem step_of_unassigned (ho : ∀ o : Op, o.code ≠ hdrOp h) :
    step s = raiseIllegal .unknownOpcode { s with inputs := rest } := by
  refine step_of_illegal hin ?_
  rw [decode_of_noOp (Op.ofCode_eq_none.2 ho), List.length_cons, hlen, packetWords_of_unassigned ho]

/-- A whole packet whose header fails the checks of its row. -/
theorem step_of_headerFault {c : IllegalCase} (ho : o.code = hdrOp h) (hf : headerFault o h = some c) :
    step s = raiseIllegal c { s with inputs := rest } := by
  rw [packetWords_of_op ho] at hlen
  refine step_of_illegal hin ?_
  rw [decode_of_headerFault ho hf hlen.ge, List.length_cons, hlen]

/-- A whole packet whose header passes the checks of its row. -/
theorem step_of_row (ho : o.code = hdrOp h) (hf : headerFault o h = none) :
    step s = exec (buildInstr o h ws) { s with inputs := rest } := by
  rw [packetWords_of_op ho] at hlen
  refine step_of_command hin ?_
  rw [decode_of_row ho hf hlen.ge, List.length_cons, hlen]

/-- A whole packet is answered Illegal by its header, or is a command that is run; either way the packet is taken. -/
theorem step_of_wholePacket :
    (∃ c, step s = raiseIllegal c { s with inputs := rest }) ∨ ∃ i, step s = exec i { s with inputs := rest } := by
  by_cases ho : ∃ o : Op, o.code = hdrOp h
  · obtain ⟨o, ho⟩ := ho
    cases hf : headerFault o h with
    | none => exact .inr ⟨_, step_of_row hin hlen ho hf⟩
    | some c => exact .inl ⟨c, step_of_headerFault hin hlen ho hf⟩
  · exact .inl ⟨_, step_of_unassigned hin hlen (not_exists.1 ho)⟩

end WholePacket

/-- A command whose handle names no listener raises Illegal by R77 case 4, whatever its index is. -/
theorem exec_buildInstr_unknownListener {s : State} {o : Op} {h : Word} (ws : List Word) (hu : o.usesLid = true)
    (hl : s.params.nl ≤ (hdrLid h).toNat) : exec (buildInstr o h ws) s = raiseIllegal .unknownListener s := by
  cases o with
  | attach => exact exec_attach_out hl
  | detach => exact exec_detach_out hl
  | enMb => exact writeMailboxBit_out true _ hl
  | disMb => exact writeMailboxBit_out false _ hl
  | enGen => exact writeGeneralBit_out true hl
  | disGen => exact writeGeneralBit_out false hl
  | isEn => exact exec_isEn_out _ hl
  | _ => cases hu

/-- Settles O5: the header's checks are those of `decode`, the checks of the operands those of `exec`. -/
theorem illegalCases : Obligations.IllegalCases := by
  intro s h ws rest hin hlen case1 case2 case3 case4 case5 illegal
  have assigned (h1 : ¬ case1) : ∃ o : Op, o.code = hdrOp h := Op.mem_codes.1 (not_not.1 h1)
  have row {o : Op} (ho : o.code = hdrOp h) (h2 : ¬ case2) (h3 : ¬ case3) :
      step s = exec (buildInstr o h ws) { s with inputs := rest } :=
    step_of_row hin hlen ho (headerFault_none (not_not.1 h2) fun hu => h3 ⟨o, ho, hu⟩)
  have listener {o : Op} (ho : o.code = hdrOp h) (h4 : ¬ case4) (hu : o.usesLid = true) :
      (hdrLid h).toNat < s.params.nl := Nat.lt_of_not_le fun hl => h4 ⟨o, ho, hu, hl⟩
  refine ⟨?unknownOpcode, ?reserved, ?unused, ?unknownListener, ?outOfDomain, ?inDomain, ?noRow⟩
  case unknownOpcode => exact fun h1 => step_of_unassigned hin hlen fun o ho => h1 (Op.mem_codes.2 ⟨o, ho⟩)
  case reserved =>
    intro h1 h2
    obtain ⟨o, ho⟩ := assigned h1
    exact step_of_headerFault hin hlen ho (headerFault_reserved h2)
  case unused =>
    rintro - h2 ⟨o, ho, hu⟩
    exact step_of_headerFault hin hlen ho (headerFault_unused (not_not.1 h2) hu)
  case unknownListener =>
    rintro - h2 h3 ⟨o, ho, hu, hl⟩
    exact (row ho h2 h3).trans (exec_buildInstr_unknownListener ws hu hl)
  case outOfDomain =>
    rintro - h2 h3 h4 (⟨hop, hidx⟩ | ⟨hop, hidx⟩)
    · exact (row (o := .isEn) hop.symm h2 h3).trans (exec_isEn_badBit (listener (o := .isEn) hop.symm h4 rfl) hidx)
    · exact (row (o := .dispatch) hop.symm h2 h3).trans (exec_dispatch_out _ hidx)
  case inDomain =>
    intro h1 h2 h3 h4 h5
    obtain ⟨o, ho⟩ := assigned h1
    rw [row ho h2 h3]
    refine exec_next_of_wellFormed (wellFormed_buildInstr ws (listener ho h4) ?_ ?_)
    · rintro rfl
      exact Nat.le_of_not_lt fun hidx => h5 (.inl ⟨ho.symm, hidx⟩)
    · rintro rfl
      exact Nat.lt_of_not_le fun hidx => h5 (.inr ⟨ho.symm, hidx⟩)
  case noRow => exact (or_congr_left (not_congr Op.mem_codes)).trans no_row_matches_iff

/-- Settles O6: whether the packet is a command or Illegal, it is taken whole and answered once. -/
theorem packetLength : Obligations.PacketLength := by
  intro s h ws rest hin hassigned hunassigned
  have hlen : ws.length + 1 = packetWords h := by
    by_cases ho : ∃ o : Op, o.code = hdrOp h
    · obtain ⟨o, ho⟩ := ho
      rw [hassigned o ho, packetWords_of_op ho]
    · rw [hunassigned (not_exists.1 ho), packetWords_of_unassigned (not_exists.1 ho)]
      rfl
  obtain ⟨c, hs⟩ | ⟨i, hs⟩ := step_of_wholePacket hin hlen
  case inl => exact ⟨_, congrArg answered hs, rfl, List.length_append, fun _ => rfl⟩
  case inr =>
    obtain ⟨t, ht⟩ := exec_answered i { s with inputs := rest }
    obtain ⟨r, _, hresp, -⟩ := exec_answered_outputs ht
    obtain ⟨hinputs, -⟩ := exec_answered_writes ht
    refine ⟨t, (congrArg answered hs).trans ht, hinputs, by rw [hresp, List.length_append]; rfl, fun ho => ?_⟩
    rw [← hs, step_of_unassigned hin hlen ho] at ht
    exact (Option.some.inj ht).symm

end Sys2Proof.Machine

namespace Sys2Proof.Machine

/-! ### What two identifiers have in common (40_filter_synth.md R108) -/

/-- Two words are equal when they have the same bits. -/
theorem word_eq_of_bits {x y : Word} (h : ∀ j, j < 32 → (x.getLsbD j = true ↔ y.getLsbD j = true)) : x = y :=
  BitVec.eq_of_getLsbD_eq fun j hj => Bool.eq_iff_iff.2 (h j hj)

theorem getLsbD_and_not (x y : Word) (j : Nat) : (x &&& ~~~y).getLsbD j = (x.getLsbD j && !y.getLsbD j) := by
  by_cases hj : j < 32
  · simp [hj]
  · simp [BitVec.getLsbD_of_ge _ j (Nat.le_of_not_lt hj)]

/-- The two identifiers have the same bits from bit j on: the common high bits `P` of the proof of R108. -/
def SameFrom (a b : Word) (j : Nat) : Prop := a.toNat / 2 ^ j = b.toNat / 2 ^ j

theorem SameFrom.refl (a : Word) (j : Nat) : SameFrom a a j := rfl

theorem sameFrom_comm {a b : Word} {j : Nat} : SameFrom a b j ↔ SameFrom b a j := eq_comm

theorem sameFrom_iff_bits {a b : Word} {j : Nat} :
    SameFrom a b j ↔ ∀ i, j ≤ i → a.getLsbD i = b.getLsbD i := by
  have shifted (w : Word) (i : Nat) : (w.toNat / 2 ^ j).testBit i = w.getLsbD (i + j) := Nat.testBit_div_two_pow ..
  constructor
  · intro h i hi
    have hbit := congrArg (Nat.testBit · (i - j)) h
    simpa only [shifted, Nat.sub_add_cancel hi] using hbit
  · intro h
    apply Nat.eq_of_testBit_eq
    intro i
    rw [shifted, shifted, h (i + j) (Nat.le_add_left j i)]

theorem SameFrom.bit {a b : Word} {j : Nat} (h : SameFrom a b j) : a.getLsbD j = b.getLsbD j :=
  sameFrom_iff_bits.1 h j (Nat.le_refl j)

/-- Two words that differ in a bit are not the same from that bit or a lower one on. -/
theorem not_sameFrom_of_xor {a b : Word} {j k : Nat} (hk : (a ^^^ b).getLsbD k = true) (hj : j ≤ k) :
    ¬ SameFrom a b j := by
  intro h
  rw [BitVec.getLsbD_xor, sameFrom_iff_bits.1 h k hj, Bool.xor_self] at hk
  cases hk

/-- Where k is the highest bit in which two words differ, they are the same above bit k alone. -/
theorem sameFrom_iff_lt {a b : Word} {j k : Nat} (hk : (a ^^^ b).getLsbD k = true)
    (htop : ∀ j, k < j → (a ^^^ b).getLsbD j = false) : SameFrom a b j ↔ k < j := by
  constructor
  · exact fun h => Nat.lt_of_not_le fun hj => not_sameFrom_of_xor hk hj h
  · intro hj
    refine sameFrom_iff_bits.2 fun i hi => ?_
    simpa using htop i (Nat.lt_of_lt_of_le hj hi)

/-! ### The identifiers of a range (R105 to R107) -/

/-- The identifiers between two bounds, which may come in either order (R106). -/
abbrev InRange (a b c : Word) : Prop := (a ≤ c ∧ c ≤ b) ∨ (b ≤ c ∧ c ≤ a)

theorem InRange.left (a b : Word) : InRange a b a := by
  rcases BitVec.le_total a b with h | h
  · exact .inl ⟨BitVec.le_refl a, h⟩
  · exact .inr ⟨h, BitVec.le_refl a⟩

/-- For bounds in ascending order. -/
theorem inRange_iff {lo hi c : Word} (h : lo ≤ hi) : InRange lo hi c ↔ lo ≤ c ∧ c ≤ hi := by
  refine ⟨?_, .inl⟩
  rintro (hc | ⟨h1, h2⟩)
  · exact hc
  · exact ⟨BitVec.le_trans h h1, BitVec.le_trans h2 h⟩

/-- An identifier of a range has the common high bits of its bounds. -/
theorem SameFrom.of_inRange {a b c : Word} {j : Nat} (h : SameFrom a b j) (hc : InRange a b c) :
    SameFrom c a j := by
  have mono {x y : Word} (hxy : x ≤ y) : x.toNat / 2 ^ j ≤ y.toNat / 2 ^ j := Nat.div_le_div_right hxy
  obtain ⟨h1, h2⟩ | ⟨h1, h2⟩ := hc
  · exact Nat.le_antisymm ((mono h2).trans_eq h.symm) (mono h1)
  · exact Nat.le_antisymm (mono h2) (h.trans_le (mono h1))

/-- The numbers `m - 1` and `m` of the proof of R108, with `m` the upper bound cut at bit j: where the bounds are
not the same from bit j on, both lie in the range, and they differ in bit j. -/
theorem exists_inRange_bit_ne {lo hi : Word} {j : Nat} (hle : lo ≤ hi) (h : ¬ SameFrom lo hi j) :
    ∃ c c', InRange lo hi c ∧ InRange lo hi c' ∧ c.getLsbD j ≠ c'.getLsbD j := by
  have hpos : 0 < 2 ^ j := Nat.two_pow_pos j
  have hlt : lo.toNat / 2 ^ j < hi.toNat / 2 ^ j := Nat.lt_of_le_of_ne (Nat.div_le_div_right hle) h
  obtain ⟨q, hq⟩ : ∃ q, hi.toNat / 2 ^ j = q + 1 := Nat.exists_eq_add_one.2 (Nat.zero_lt_of_lt hlt)
  have hm : (q + 1) * 2 ^ j ≤ hi.toNat := (Nat.le_div_iff_mul_le hpos).1 hq.ge
  have hlo : lo.toNat < (q + 1) * 2 ^ j := (Nat.div_lt_iff_lt_mul hpos).1 (hq ▸ hlt)
  have word {n : Nat} (hn : n ≤ hi.toNat) : (BitVec.ofNat 32 n).toNat = n :=
    (BitVec.toNat_ofNat n 32).trans (Nat.mod_eq_of_lt (Nat.lt_of_le_of_lt hn hi.isLt))
  have bit {n r : Nat} (hn : n ≤ hi.toNat) (hr : n / 2 ^ j = r) :
      (BitVec.ofNat 32 n).getLsbD j = decide (r % 2 = 1) := by
    rw [← BitVec.testBit_toNat, word hn, Nat.testBit_eq_decide_div_mod_eq, hr]
  have hm1 : (q + 1) * 2 ^ j - 1 ≤ hi.toNat := (Nat.sub_le _ 1).trans hm
  refine ⟨BitVec.ofNat 32 ((q + 1) * 2 ^ j - 1), BitVec.ofNat 32 ((q + 1) * 2 ^ j), .inl ?_, .inl ?_, ?_⟩
  · rw [BitVec.le_def, BitVec.le_def, word hm1]
    omega
  · rw [BitVec.le_def, BitVec.le_def, word hm]
    omega
  · have hq1 : ((q + 1) * 2 ^ j - 1) / 2 ^ j = q := by
      rw [Nat.div_eq_iff hpos, Nat.succ_mul]
      omega
    rw [bit hm1 hq1, bit hm (Nat.mul_div_cancel _ hpos), ne_eq, decide_eq_decide]
    omega

/-- A bit has one value in the whole range exactly when it is one of the common high bits of the bounds. -/
theorem sameFrom_iff_range_bit {a b : Word} {j : Nat} :
    SameFrom a b j ↔ ∀ c, InRange a b c → c.getLsbD j = a.getLsbD j := by
  refine ⟨fun h c hc => (h.of_inRange hc).bit, fun h => ?_⟩
  by_contra hne
  obtain ⟨c, c', hc, hc', hbit⟩ : ∃ c c', InRange a b c ∧ InRange a b c' ∧ c.getLsbD j ≠ c'.getLsbD j := by
    rcases BitVec.le_total a b with hle | hle
    · exact exists_inRange_bit_ne hle hne
    · obtain ⟨c, c', hc, hc', hbit⟩ := exists_inRange_bit_ne hle (mt sameFrom_comm.1 hne)
      exact ⟨c, c', hc.symm, hc'.symm, hbit⟩
  exact hbit ((h c hc).trans (h c' hc').symm)

/-! ### The active width (R100) -/

/-- The number of bits of the width that the larger of two bounds needs. -/
def activeBits (a b : Word) : Nat := if a ≤ 0x7FF ∧ b ≤ 0x7FF then 11 else 29

theorem activeBits_le (a b : Word) : activeBits a b ≤ 32 := by
  unfold activeBits; split <;> decide

/-- The width of two bounds as a mask. -/
theorem lowmask_activeBits (a b : Word) :
    lowmask (activeBits a b) = if a ≤ 0x7FF ∧ b ≤ 0x7FF then 0x7FF else 0x1FFFFFFF := by
  unfold activeBits; split <;> rfl

theorem extOf_of_le {v : Word} (h : v ≤ 0x7FF) : extOf v = false := decide_eq_false (BitVec.not_lt.2 h)

theorem extOf_of_lt {v : Word} (h : 0x7FF < v) : extOf v = true := decide_eq_true h

theorem widthOf_eq (v : Word) : widthOf v = if v ≤ 0x7FF then 0x7FF else 0x1FFFFFFF := by
  rw [widthOf]
  split
  case isTrue h => rw [if_neg (show ¬ v ≤ 0x7FF from BitVec.not_le.2 (of_decide_eq_true h))]; rfl
  case isFalse h => rw [if_pos (BitVec.not_lt.1 (mt extOf_of_lt h))]; rfl

/-- The larger bound is above 0x7FF exactly when one of the two is. -/
theorem lt_maxWord {v a b : Word} : v < maxWord a b ↔ v < a ∨ v < b := by
  rw [maxWord]
  split
  case isTrue h => exact ⟨.inr, fun hv => hv.elim (Nat.lt_of_lt_of_le · h) id⟩
  case isFalse h => exact ⟨.inl, fun hv => hv.elim id (BitVec.lt_trans · (BitVec.not_le.1 h))⟩

theorem widthOf_maxWord (a b : Word) : widthOf (maxWord a b) = lowmask (activeBits a b) := by
  have hmax : maxWord a b ≤ 0x7FF ↔ a ≤ 0x7FF ∧ b ≤ 0x7FF := by
    simpa only [not_or, BitVec.not_lt] using not_congr (lt_maxWord (v := 0x7FF) (a := a) (b := b))
  simp only [widthOf_eq, lowmask_activeBits, hmax]

/-- A word within a width has no bit above it. -/
theorem getLsbD_of_le_lowmask {c : Word} {n j : Nat} (hc : c ≤ lowmask n) (hj : n ≤ j) :
    c.getLsbD j = false := by
  have hlow : (lowmask n).toNat < 2 ^ n := by
    rw [lowmask, BitVec.toNat_ofNat]
    exact Nat.lt_of_le_of_lt (Nat.mod_le _ _) (Nat.sub_lt (Nat.two_pow_pos n) Nat.one_pos)
  exact Nat.testBit_lt_two_pow ((Nat.lt_of_le_of_lt hc hlow).trans_le (Nat.pow_le_pow_right (by decide) hj))

/-! ### The range filter, bit by bit (R105, R108) -/

/-- The bits that R108 cuts off: `L`, or none where the bounds are equal. -/
def rangeCut (lo hi : Word) : Word := if lo = hi then 0 else lowmask (topBit (lo ^^^ hi) + 1)

theorem filterForRange_eq (a b : Word) :
    filterForRange a b =
      ⟨minWord a b &&& ~~~rangeCut (minWord a b) (maxWord a b),
        widthOf (maxWord a b) &&& ~~~rangeCut (minWord a b) (maxWord a b), extOf (maxWord a b)⟩ := rfl

/-- The bits cut off are those outside the common high bits. -/
theorem rangeCut_getLsbD {lo hi : Word} {j : Nat} :
    (rangeCut lo hi).getLsbD j = false ↔ SameFrom lo hi j := by
  rw [rangeCut]
  split
  case isTrue h => simp [h, SameFrom.refl]
  case isFalse h =>
    obtain ⟨hlt, hk, htop⟩ := topBit_spec (v := lo ^^^ hi) (by simpa using h)
    rw [lowmask_getLsbD _ _ hlt, sameFrom_iff_lt hk htop, decide_eq_false_iff_not, Nat.lt_succ_iff, Nat.not_le]

theorem and_not_rangeCut_bit {v lo hi : Word} {j : Nat} :
    (v &&& ~~~rangeCut lo hi).getLsbD j = true ↔ v.getLsbD j = true ∧ SameFrom lo hi j := by
  rw [getLsbD_and_not, Bool.and_eq_true, Bool.not_eq_true', rangeCut_getLsbD]

/-- Where k is the highest bit in which the bounds differ, bits k..0 are cut off. -/
theorem rangeCut_eq_lowmask {lo hi : Word} {k : Nat} (hk : (lo ^^^ hi).getLsbD k = true)
    (htop : ∀ j, k < j → (lo ^^^ hi).getLsbD j = false) : rangeCut lo hi = lowmask (k + 1) := by
  refine BitVec.eq_of_getLsbD_eq fun j hj => Bool.eq_iff_iff.2 (not_iff_not.1 ?_)
  rw [Bool.not_eq_true, Bool.not_eq_true, rangeCut_getLsbD, sameFrom_iff_lt hk htop,
    lowmask_getLsbD _ _ (BitVec.lt_of_getLsbD hk), decide_eq_false_iff_not, Nat.lt_succ_iff, Nat.not_le]

theorem sameFrom_min_max {a b : Word} {j : Nat} : SameFrom (minWord a b) (maxWord a b) j ↔ SameFrom a b j := by
  obtain ⟨hmin, hmax⟩ | ⟨hmin, hmax⟩ := minWord_maxWord_cases a b <;> rw [hmin, hmax]
  exact sameFrom_comm

/-- The id has the common high bits of the bounds. -/
theorem filterForRange_id_bit {a b : Word} {j : Nat} :
    (filterForRange a b).id.getLsbD j = true ↔ a.getLsbD j = true ∧ SameFrom a b j := by
  have hmin : SameFrom a b j → (minWord a b).getLsbD j = a.getLsbD j := by
    intro h
    obtain ⟨hmin, -⟩ | ⟨hmin, -⟩ := minWord_maxWord_cases a b <;> rw [hmin]
    exact h.bit.symm
  rw [filterForRange_eq, and_not_rangeCut_bit, sameFrom_min_max]
  exact and_congr_left fun h => by rw [hmin h]

/-- The mask has the bits of the width that are common high bits of the bounds. -/
theorem filterForRange_mask_bit {a b : Word} {j : Nat} :
    (filterForRange a b).mask.getLsbD j = true ↔ j < activeBits a b ∧ SameFrom a b j := by
  rw [filterForRange_eq, and_not_rangeCut_bit, sameFrom_min_max, widthOf_maxWord,
    lowmask_getLsbD _ _ (activeBits_le a b), decide_eq_true_eq]

theorem filterForRange_extended {a b : Word} :
    (filterForRange a b).extended = true ↔ 0x7FF < a ∨ 0x7FF < b :=
  decide_eq_true_iff.trans lt_maxWord

theorem filterForRange_comm (a b : Word) : filterForRange a b = filterForRange b a := by
  rw [filterForRange_eq, minWord_comm a b, maxWord_comm a b, filterForRange_eq]

/-- A pair (id, mask) admits an identifier when they have the same bits under the mask (R102). -/
theorem masked_eq_iff {c i m : Word} :
    c &&& m = i &&& m ↔ ∀ j, m.getLsbD j = true → c.getLsbD j = i.getLsbD j := by
  constructor
  · intro h j hm
    have hbit := congrArg (BitVec.getLsbD · j) h
    simpa [hm] using hbit
  · intro h
    refine BitVec.eq_of_getLsbD_eq fun j _ => ?_
    rw [BitVec.getLsbD_and, BitVec.getLsbD_and]
    cases hm : m.getLsbD j with
    | false => simp
    | true => rw [h j hm]

/-- The range filter admits an identifier that agrees with a bound in their common high bits within the width. -/
theorem filterForRange_admits_iff {a b c : Word} :
    c &&& (filterForRange a b).mask = (filterForRange a b).id &&& (filterForRange a b).mask ↔
      ∀ j, j < activeBits a b → SameFrom a b j → c.getLsbD j = a.getLsbD j := by
  have hid {j : Nat} (h : SameFrom a b j) : (filterForRange a b).id.getLsbD j = a.getLsbD j :=
    Bool.eq_iff_iff.2 (filterForRange_id_bit.trans (and_iff_left h))
  rw [masked_eq_iff]
  constructor
  · exact fun h j hj hp => (h j (filterForRange_mask_bit.2 ⟨hj, hp⟩)).trans (hid hp)
  · intro h j hm
    obtain ⟨hj, hp⟩ := filterForRange_mask_bit.1 hm
    exact (h j hj hp).trans (hid hp).symm

/-- The match predicate on a frame of the filter's own framing is the masked comparison (R102). -/
theorem filterMatches_extended {f : Filter} {c : Word} :
    filterMatches f c f.extended = true ↔ c &&& f.mask = f.id &&& f.mask := by
  simp [filterMatches]

/-! ### The scan (R105) -/

/-- The scan keeps the id bits that are 1 in the whole range, and the width's bits that have one value there. -/
theorem filterForRangeScan_eq (a b : Word) : filterForRangeScan a b = filterForRange a b := by
  have hle := minWord_le_maxWord a b
  have hscan := foldl_scanVisit_getLsbD (minWord a b) (scanRange (minWord a b) (maxWord a b)) (minWord a b)
    (widthOf (maxWord a b))
  have hsame (j : Nat) : (∀ c ∈ scanRange (minWord a b) (maxWord a b), c.getLsbD j = (minWord a b).getLsbD j) ↔
      SameFrom (minWord a b) (maxWord a b) j := by
    simp only [sameFrom_iff_range_bit, mem_scanRange hle, inRange_iff hle]
  rw [filterForRange_eq, filterForRangeScan, Filter.mk.injEq]
  refine ⟨word_eq_of_bits fun j hj => (hscan j hj).1.trans ?idBits,
    word_eq_of_bits fun j hj => (hscan j hj).2.trans ?maskBits, rfl⟩
  case idBits =>
    rw [and_not_rangeCut_bit, ← hsame]
    exact and_congr_right fun hlo => by simp only [hlo]
  case maskBits => rw [and_not_rangeCut_bit, hsame]

/-! ### The range filter by the bounds (R108, R112, R113) -/

/-- For equal bounds nothing is cut off. -/
theorem filterForRange_of_eq {a b : Word} (h : minWord a b = maxWord a b) :
    filterForRange a b = ⟨minWord a b, widthOf (maxWord a b), extOf (maxWord a b)⟩ := by
  have hcut : rangeCut (minWord a b) (maxWord a b) = 0#32 := if_pos h
  rw [filterForRange_eq, hcut, BitVec.not_zero, BitVec.and_allOnes, BitVec.and_allOnes]

theorem filterForRange_self (x : Word) : filterForRange x x = filterForId x := by
  have hmin : minWord x x = x := ite_self x
  have hmax : maxWord x x = x := ite_self x
  rw [filterForRange_of_eq (hmin.trans hmax.symm), hmin, hmax, filterForId]

/-- Within the width, an identifier is admitted when it agrees with a bound in all their common high bits. -/
theorem filterForRange_admits_iff_of_le {a b c : Word} (ha : a ≤ lowmask (activeBits a b))
    (hc : c ≤ lowmask (activeBits a b)) :
    c &&& (filterForRange a b).mask = (filterForRange a b).id &&& (filterForRange a b).mask ↔
      ∀ j, SameFrom a b j → c.getLsbD j = a.getLsbD j := by
  rw [filterForRange_admits_iff]
  refine ⟨fun h j hp => ?_, fun h j _ => h j⟩
  rcases Nat.lt_or_ge j (activeBits a b) with hj | hj
  · exact h j hj hp
  · rw [getLsbD_of_le_lowmask ha hj, getLsbD_of_le_lowmask hc hj]

/-! ### The commands SYN.ID and SYN.IDM (R103, R104) -/

theorem filterForId_of_le {a : Word} (h : a ≤ 0x7FF) : filterForId a = ⟨a, 0x7FF, false⟩ := by
  rw [filterForId, widthOf_eq, if_pos h, extOf_of_le h]

theorem filterForId_of_lt {a : Word} (h : 0x7FF < a) : filterForId a = ⟨a, 0x1FFFFFFF, true⟩ := by
  rw [filterForId, widthOf_eq, if_neg (BitVec.not_le.2 h), extOf_of_lt h]

theorem exec_synId (a : Word) (s : State) : exec (.synId a) s = .next (s.replyFilter (filterForId a)) := rfl

theorem exec_synIdm (a b : Word) (s : State) : exec (.synIdm a b) s = .next (s.replyFilter ⟨a, b, extOf a⟩) := rfl

/-- Settles O20: the width rule, below and above 0x7FF. -/
theorem synIdReply : Obligations.SynIdReply := by
  intro a s
  refine ⟨rfl, fun h => ?standard, fun h => ?extended⟩
  case standard => rw [exec_synId, filterForId_of_le h]; rfl
  case extended => rw [exec_synId, filterForId_of_lt h]; rfl

/-- Settles O21: the extended flag is that of the id. -/
theorem synIdmReply : Obligations.SynIdmReply := by
  intro a b s
  refine ⟨rfl, fun h => ?standard, fun h => ?extended⟩
  case standard => rw [exec_synIdm, extOf_of_le h]; rfl
  case extended => rw [exec_synIdm, extOf_of_lt h]; rfl

/-! ### The command SYN.RNG (R105 to R108, R113) -/

theorem exec_synRng (a b : Word) (s : State) : exec (.synRng a b) s = .next (s.replyFilter (filterForRange a b)) := rfl

/-- The visits of the scan, as a walk over the mathematical integers of the range (R107). -/
theorem foldl_scanRange (lo hi : Word) (acc : Word × Word) :
    (scanRange lo hi).foldl (scanVisit lo) acc =
      (List.range' lo.toNat (hi.toNat + 1 - lo.toNat)).foldl
        (fun acc c => scanVisit lo acc (BitVec.ofNat 32 c)) acc := by
  rw [scanRange, List.foldl_map, List.range'_eq_map_range, List.foldl_map]

theorem boolWord_extOf (v : Word) : boolWord (extOf v) = if 0x7FF < v then 1 else 0 := by
  rw [boolWord, extOf]
  simp only [decide_eq_true_eq]
  rfl

/-- Settles O22: the model's closed form is the scan, and the scan's list is that of the integers of the range. -/
theorem synRngScan : Obligations.SynRngScan := by
  intro a b s
  refine ⟨rfl, ?_⟩
  intro lo hi width visit acc
  have hacc : (scanRange lo hi).foldl (scanVisit lo) (lo, widthOf hi) = acc := by
    rw [widthOf_eq, foldl_scanRange]; rfl
  rw [exec_synRng, ← filterForRangeScan_eq, ← hacc, ← boolWord_extOf]
  rfl

/-- Settles O23: the closed form is the model's own, with the highest differing bit for `topBit`. -/
theorem rangeClosedForm : Obligations.RangeClosedForm := by
  intro a b lo hi width
  have hwidth : widthOf hi = width := widthOf_eq hi
  refine ⟨(filterForRangeScan_eq a b).symm, fun s => ?answer, fun heq => ?equal, fun k hk htop => ?differ⟩
  case answer => rw [filterForRangeScan_eq, exec_synRng]
  case equal =>
    rw [filterForRangeScan_eq, filterForRange_of_eq heq, ← hwidth]
    rfl
  case differ =>
    have hcut : rangeCut lo hi = lowmask (k + 1) := rangeCut_eq_lowmask hk htop
    rw [filterForRangeScan_eq, filterForRange_eq, ← hwidth]
    change Filter.mk (lo &&& ~~~rangeCut lo hi) (widthOf hi &&& ~~~rangeCut lo hi) _ = _
    rw [hcut]
    rfl

/-- Settles O29: both filters are the identifier under its width. -/
theorem rangeDegenerate : Obligations.RangeDegenerate := by
  intro x s
  rw [exec_synRng, filterForRange_self, exec_synId]

/-! ### The properties of the filters (R106, R109 to R116) -/

theorem and_not_eq_zero {v m : Word} (h : ∀ j, v.getLsbD j = true → m.getLsbD j = true) : v &&& ~~~m = 0 := by
  refine word_eq_of_bits fun j _ => ?_
  rw [getLsbD_and_not]
  cases hv : v.getLsbD j with
  | false => simp
  | true => simp [h j hv]

/-- Settles O24: nothing of the filter depends on the order, and its mask lies in the width of the larger bound. -/
theorem rangeOrder : Obligations.RangeOrder := by
  intro a b s
  refine ⟨?swap, filterForRange_extended, ?mask⟩
  case swap => rw [exec_synRng, filterForRange_comm, exec_synRng]
  case mask =>
    have hwidth : (if 0x7FF < a ∨ 0x7FF < b then 0x1FFFFFFF else 0x7FF) = lowmask (activeBits a b) := by
      simp only [lowmask_activeBits, ← BitVec.not_lt, ← not_or, ite_not]
    rw [hwidth]
    refine and_not_eq_zero fun j hm => ?_
    rw [lowmask_getLsbD _ _ (activeBits_le a b)]
    exact decide_eq_true (filterForRange_mask_bit.1 hm).1

/-- Settles O25: the bits that the filter compares are common to the whole range. -/
theorem rangeCovers : Obligations.RangeCovers := by
  intro a b c hc f
  have hadmits : c &&& f.mask = f.id &&& f.mask :=
    filterForRange_admits_iff.2 fun j _ hp => (hp.of_inRange hc).bit
  refine ⟨hadmits, ?_⟩
  rintro e rfl
  exact filterMatches_extended.2 hadmits

/-- Settles O26: a bit of the id inside the width is a bit of the mask. SYN.IDM takes any pair, such as (1, 0). -/
theorem canonicalId : Obligations.CanonicalId := by
  refine ⟨fun a => ?single, fun a b => ?range, 1, 0, by decide⟩
  case single =>
    refine and_not_eq_zero fun j h => ?_
    rw [filterForId, widthOf_eq]
    exact (Bool.and_eq_true_iff.1 (BitVec.getLsbD_and ▸ h)).2
  case range =>
    refine and_not_eq_zero fun j h => ?_
    rw [← lowmask_activeBits, BitVec.getLsbD_and, lowmask_getLsbD _ _ (activeBits_le a b), Bool.and_eq_true,
      decide_eq_true_eq, filterForRange_id_bit] at h
    obtain ⟨⟨-, hp⟩, hj⟩ := h
    exact filterForRange_mask_bit.2 ⟨hj, hp⟩

/-- Settles O27: a bit that a covering pair compares has one value in the range, so it is a common high bit. -/
theorem rangeMinimal : Obligations.RangeMinimal := by
  intro a b id' mask' hcover
  have hself := hcover a (InRange.left a b)
  have hsame (j : Nat) (hm : mask'.getLsbD j = true) : SameFrom a b j :=
    sameFrom_iff_range_bit.2 fun c hc => masked_eq_iff.1 ((hcover c hc).trans hself.symm) j hm
  refine ⟨fun k j hk hj => ?low, ?admits⟩
  case low => exact Bool.eq_false_iff.2 fun hm => not_sameFrom_of_xor hk hj (hsame j hm)
  case admits =>
    intro f width ha _ c hc hadmits
    have hwidth : width = lowmask (activeBits a b) := (lowmask_activeBits a b).symm
    rw [hwidth] at ha hc
    have hbits := (filterForRange_admits_iff_of_le ha hc).1 hadmits
    exact (masked_eq_iff.2 fun j hm => hbits j (hsame j hm)).trans hself

/-- Settles O28: the identifiers admitted are those with the bits of the bounds above bit k. -/
theorem rangeOverAdmits : Obligations.RangeOverAdmits := by
  intro a b k hk htop f width base ha _ c hc
  have hwidth : width = lowmask (activeBits a b) := (lowmask_activeBits a b).symm
  rw [hwidth] at ha hc
  have hpos : 0 < 2 ^ (k + 1) := Nat.two_pow_pos _
  calc c &&& f.mask = f.id &&& f.mask
    _ ↔ ∀ j, SameFrom a b j → c.getLsbD j = a.getLsbD j := filterForRange_admits_iff_of_le ha hc
    _ ↔ SameFrom c a (k + 1) := by simp only [sameFrom_iff_lt hk htop, sameFrom_iff_bits, Nat.succ_le_iff]
    _ ↔ base ≤ c.toNat ∧ c.toNat < base + 2 ^ (k + 1) := by
      rw [SameFrom, Nat.div_eq_iff hpos]
      omega

/-- Settles O30: the larger bound decides the framing, and above its bits both bounds are 0. -/
theorem rangeAcrossWidths : Obligations.RangeAcrossWidths := by
  refine ⟨fun a b ha hb => ?_, by decide⟩
  have hext : (filterForRange a b).extended = true := filterForRange_extended.2 (.inr hb)
  refine ⟨hext, fun j hj hj29 hzero => ?mask, fun c => ?standard⟩
  case mask =>
    have hbits : activeBits a b = 29 := if_neg fun h => BitVec.not_le.2 hb h.2
    refine filterForRange_mask_bit.2 ⟨hbits.symm ▸ hj29, sameFrom_iff_bits.2 fun i hi => ?_⟩
    rw [hzero i hi]
    exact getLsbD_of_le_lowmask (n := 11) ha (hj.trans hi)
  case standard => simp [filterMatches, hext]

/-- Settles O31: with no common high bits inside the width nothing is compared. -/
theorem rangeCollapse : Obligations.RangeCollapse := by
  refine ⟨fun a b j hdiff hj => ?_, by decide⟩
  have hactive : activeBits a b ≤ j + 1 := by
    unfold activeBits
    split at hj
    case isTrue h => rw [if_pos h]; omega
    case isFalse h => rw [if_neg h]; omega
  have hmask : (filterForRange a b).mask = 0 := by
    refine word_eq_of_bits fun i _ => iff_of_false (fun hm => ?_) (by simp)
    obtain ⟨hi, hp⟩ := filterForRange_mask_bit.1 hm
    exact not_sameFrom_of_xor hdiff (by omega) hp
  exact ⟨hmask, fun c => filterMatches_extended.2 (by simp [hmask])⟩

theorem activeBits_of_le {a b : Word} (h : a ≤ b) : activeBits a b = if b ≤ 0x7FF then 11 else 29 := by
  have hmax : a ≤ 0x7FF ∧ b ≤ 0x7FF ↔ b ≤ 0x7FF := and_iff_right_of_imp (BitVec.le_trans h)
  simp only [activeBits, hmax]

/-- Settles O32: the common high bits are those in which the whole range has one value. -/
theorem rangeBits : Obligations.RangeBits := by
  intro a b j hle _
  have hsame : SameFrom a b j ↔ ∀ c, a ≤ c → c ≤ b → c.getLsbD j = a.getLsbD j := by
    simp only [sameFrom_iff_range_bit, inRange_iff hle, and_imp]
  rw [filterForRange_id_bit, filterForRange_mask_bit, activeBits_of_le hle, hsame]
  refine ⟨⟨?common, ?all⟩, Iff.rfl⟩
  case common => exact fun ⟨ha, h⟩ c h1 h2 => (h c h1 h2).trans ha
  case all =>
    intro h
    have ha := h a (BitVec.le_refl a) hle
    exact ⟨ha, fun c h1 h2 => (h c h1 h2).trans ha.symm⟩

end Sys2Proof.Machine

namespace Sys2Proof

/-! ### A header word by its fields (30_encoding.md R71, R76) -/

/-- A header word as its fields put in place: `OP` at bit 0, `IDX` at bit 8, `LID` at bit 16. -/
theorem headerWord_eq_or (o : Op) (l x : Byte) :
    headerWord o l x = o.code.setWidth 32 ||| x.setWidth 32 <<< 8 ||| l.setWidth 32 <<< 16 := by
  apply BitVec.eq_of_getLsbD_eq
  intro k hk
  rw [headerWord_getLsbD]
  simp only [BitVec.getLsbD_or, BitVec.getLsbD_shiftLeft, BitVec.getLsbD_setWidth]
  by_cases hop : k < 8
  · simp [hop, hk, show k < 16 by omega]
  rw [if_neg hop, BitVec.getLsbD_of_ge o.code k (Nat.le_of_not_lt hop)]
  by_cases hidx : k - 8 < 8
  · simp [hop, hk, hidx, show k < 16 by omega, show k - 8 < 32 by omega]
  rw [if_neg hidx, BitVec.getLsbD_of_ge x (k - 8) (Nat.le_of_not_lt hidx), Nat.sub_sub]
  by_cases hlid : k - 16 < 8
  · simp [hk, hlid, show ¬ k < 16 by omega, show k - 16 < 32 by omega]
  · simp [hlid, BitVec.getLsbD_of_ge l (k - 16) (Nat.le_of_not_lt hlid)]

/-- A header word with a handle and no index. -/
theorem headerWord_lid (o : Op) (l : Byte) : headerWord o l 0 = o.code.setWidth 32 ||| l.setWidth 32 <<< 16 := by
  rw [headerWord_eq_or]
  simp

end Sys2Proof

namespace Sys2Proof.Machine

/-! ### The slots and their counts (10_state.md R30, R32) -/

/-- With every slot free no slot is valid. -/
theorem State.validSlots_eq_zero {s : State} (hfree : ∀ k : Fin 4, s.slots[k] = none) : s.validSlots = 0 := by
  refine List.countP_eq_zero.2 fun o ho => ?_
  obtain ⟨k, rfl⟩ := mem_slots.1 ho
  simp [hfree k]

/-- Filling a free slot adds one valid slot. -/
theorem State.validSlots_setSlot_some {s : State} {k : Fin 4} (hk : s.slots[k] = none) (l : Byte) :
    (s.setSlot k (some l)).validSlots = s.validSlots + 1 := by
  have hcount := countP_setSlot Option.isSome s k (some l)
  simpa [State.validSlots, hk] using hcount

/-- Freeing a valid slot takes one away. -/
theorem State.validSlots_setSlot_none {s : State} {k : Fin 4} {l : Byte} (hk : s.slots[k] = some l) :
    (s.setSlot k none).validSlots + 1 = s.validSlots := by
  have hcount := countP_setSlot Option.isSome s k none
  simpa [State.validSlots, hk] using hcount

/-- A handle that takes a free slot is held by one slot more. -/
theorem State.slotsHolding_setSlot_some {s : State} {k : Fin 4} (hk : s.slots[k] = none) (l : Byte) :
    (s.setSlot k (some l)).slotsHolding l = s.slotsHolding l + 1 := by
  have hcount := countP_setSlot (· == some l) s k (some l)
  simpa [State.slotsHolding, List.count, hk] using hcount

/-- A handle one of whose slots is freed is held by one slot less. -/
theorem State.slotsHolding_setSlot_none {s : State} {k : Fin 4} {l : Byte} (hk : s.slots[k] = some l) :
    (s.setSlot k none).slotsHolding l + 1 = s.slotsHolding l := by
  have hcount := countP_setSlot (· == some l) s k none
  simpa [State.slotsHolding, List.count, hk] using hcount

/-- There is no lowest free slot exactly when all four slots are valid. -/
theorem State.firstFree_eq_none_iff_validSlots {s : State} : s.firstFree = none ↔ s.validSlots = 4 := by
  have hall : s.validSlots = 4 ↔ ∀ o ∈ s.slots.toList, o.isSome = true := by
    rw [← List.countP_eq_length, Vector.length_toList, State.validSlots]
  simp only [State.firstFree_eq_none, hall, mem_slots, forall_exists_index, forall_apply_eq_imp_iff,
    Option.isSome_iff_ne_none]

/-- The registry is full exactly when there is no lowest free slot. -/
theorem State.isFull_iff_firstFree {s : State} : s.isFull = true ↔ s.firstFree = none := by
  rw [State.firstFree_eq_none_iff_validSlots, State.isFull, List.all_eq_true, ← List.countP_eq_length,
    Vector.length_toList, State.validSlots]

/-- A handle is attached exactly when there is a lowest slot that holds it. -/
theorem State.isAttached_iff_firstHolding {s : State} {l : Byte} :
    s.isAttached l = true ↔ ∃ k, s.firstHolding l = some k := by
  rw [State.isAttached_iff, mem_slots, ← Option.isSome_iff_exists, Option.isSome_iff_ne_none, Ne,
    State.firstHolding_eq_none, not_forall_not]

/-- Writing a slot with nothing, or with a handle that no slot holds, leaves no handle in two slots. -/
theorem State.NoHandleTwice.setSlot {s : State} (h : s.NoHandleTwice) (k : Fin 4) {v : Option Byte}
    (hv : v ≠ none → ∀ j : Fin 4, s.slots[j] ≠ v) : (s.setSlot k v).NoHandleTwice := by
  intro i j hij
  rw [State.setSlot_getElem, State.setSlot_getElem]
  by_cases hi : i = k
  · rw [if_pos hi, if_neg fun hj => hij (hi.trans hj.symm)]
    exact fun hne => (hv hne j).symm
  · rw [if_neg hi]
    by_cases hj : j = k
    · rw [if_pos hj]
      rintro hne rfl
      exact hv hne i rfl
    · rw [if_neg hj]
      exact h i j hij

/-- A mask written with 0 has no bit set. -/
theorem State.setMask_zero_maskBit {s : State} {l : Byte} (hl : l.toNat < s.lmask.length) (i : Nat) :
    (s.setMask l 0).maskBit l i = false := by
  rw [State.maskBit, State.setMask_maskAt s l l 0 hl, if_pos rfl]
  exact BitVec.getLsbD_zero

/-! ### What a command does to the slots -/

/-- Only an ATTACH that finds a free slot and a DETACH that finds the handle write a slot, and they answer OK; every other
ATTACH and DETACH answers an error. -/
theorem exec_answered_slots {i : Instr} {s t : State} (h : answered (exec i s) = some t) :
    (∃ l k, i = .attach l ∧ s.firstFree = some k ∧ t = ((s.setSlot k (some l)).setMask l 0).replyOk) ∨
    (∃ l k, i = .detach l ∧ s.firstHolding l = some k ∧ t = (s.setSlot k none).replyOk) ∨
    (t.slots = s.slots ∧ (i.op = .attach ∨ i.op = .detach → t.responses ≠ s.responses ++ [⟨.ok, 0, 0, 0⟩])) := by
  cases i with
  | attach l =>
    rcases Nat.lt_or_ge l.toNat s.params.nl with hl | hl
    · cases hk : s.firstFree with
      | some k => rw [exec_attach_free hl hk] at h; cases h; exact .inl ⟨l, k, rfl, rfl, rfl⟩
      | none => rw [exec_attach_full hl hk] at h; cases h; exact .inr (.inr ⟨rfl, by simp⟩)
    · rw [exec_attach_out hl] at h; cases h; exact .inr (.inr ⟨rfl, by simp⟩)
  | detach l =>
    rcases Nat.lt_or_ge l.toNat s.params.nl with hl | hl
    · cases hk : s.firstHolding l with
      | some k => rw [exec_detach_found hl hk] at h; cases h; exact .inr (.inl ⟨l, k, rfl, hk, rfl⟩)
      | none => rw [exec_detach_notFound hl hk] at h; cases h; exact .inr (.inr ⟨rfl, by simp⟩)
    · rw [exec_detach_out hl] at h; cases h; exact .inr (.inr ⟨rfl, by simp⟩)
  | _ =>
    obtain ⟨-, -, -, hslots, -⟩ := exec_answered_writes h
    exact .inr (.inr ⟨not_imp_comm.1 hslots (by simp), by simp⟩)

/-- How a command changes the number of valid slots (R135). -/
theorem exec_answered_validSlots {i : Instr} {s t : State} (h : answered (exec i s) = some t) :
    (i.op = .attach → t.responses = s.responses ++ [⟨.ok, 0, 0, 0⟩] → t.validSlots = s.validSlots + 1) ∧
    (i.op = .detach → t.responses = s.responses ++ [⟨.ok, 0, 0, 0⟩] → t.validSlots + 1 = s.validSlots) ∧
    (i.op ≠ .attach ∧ i.op ≠ .detach ∨ t.responses ≠ s.responses ++ [⟨.ok, 0, 0, 0⟩] →
      t.validSlots = s.validSlots) := by
  obtain ⟨l, k, rfl, hk, rfl⟩ | ⟨l, k, rfl, hk, rfl⟩ | ⟨hslots, herr⟩ := exec_answered_slots h
  · have hfree := (State.firstFree_eq_some.1 hk).1
    exact ⟨fun _ _ => State.validSlots_setSlot_some hfree l, nofun, by simp⟩
  · have hheld := (State.firstHolding_eq_some.1 hk).1
    exact ⟨nofun, fun _ _ => State.validSlots_setSlot_none hheld, by simp⟩
  · exact ⟨fun hop hok => absurd hok (herr (.inl hop)), fun hop hok => absurd hok (herr (.inr hop)),
      fun _ => by rw [State.validSlots, hslots, State.validSlots]⟩

/-! ### Sequences of commands (20_memory.md R60) -/

/-- A run goes through the next state of its first command. -/
theorem execAll_cons {i : Instr} {s u : State} (h : exec i s = .next u) (is : List Instr) :
    execAll (i :: is) s = execAll is u := by
  rw [execAll, h]
  rfl

/-- While a slot is free an ATTACH of a known handle answers OK. -/
theorem exec_attach_ok {s : State} {l : Byte} (hl : l.toNat < s.params.nl) (hroom : s.validSlots < 4) :
    ∃ t, exec (.attach l) s = .next t ∧ t.responses = s.responses ++ [⟨.ok, 0, 0, 0⟩] := by
  cases hk : s.firstFree with
  | none => exact absurd (State.firstFree_eq_none_iff_validSlots.1 hk) (Nat.ne_of_lt hroom)
  | some k => exact ⟨_, exec_attach_free hl hk, rfl⟩

/-- As many ATTACH commands as slots are free all answer OK, and each takes one slot. -/
theorem execAll_attach {ls : List Byte} {s : State} (hnl : ∀ l ∈ ls, l.toNat < s.params.nl)
    (hroom : s.validSlots + ls.length ≤ 4) :
    ∃ t, execAll (ls.map .attach) s = some t ∧ t.params = s.params ∧ t.validSlots = s.validSlots + ls.length ∧
      t.responses = s.responses ++ List.replicate ls.length ⟨.ok, 0, 0, 0⟩ := by
  induction ls generalizing s with
  | nil => exact ⟨s, rfl, rfl, rfl, (List.append_nil _).symm⟩
  | cons l ls ih =>
    obtain ⟨hl, hls⟩ := List.forall_mem_cons.1 hnl
    rw [List.length_cons] at hroom
    obtain ⟨u, hu, hok⟩ := exec_attach_ok hl (by omega)
    have hparams : u.params = s.params := exec_answered_params (answered_of_next hu)
    obtain ⟨hup, -, -⟩ := exec_answered_validSlots (answered_of_next hu)
    have hcount : u.validSlots = s.validSlots + 1 := hup rfl hok
    obtain ⟨t, ht, hp, hv, hr⟩ := ih (s := u) (hparams ▸ hls) (by omega)
    refine ⟨t, (execAll_cons hu _).trans ht, hp.trans hparams, by rw [hv, hcount, List.length_cons]; omega, ?_⟩
    rw [hr, hok, List.append_assoc, List.length_cons, List.replicate_succ, List.singleton_append]

/-! ### The statements about the registry (41_listener_registry.md) -/

/-- Settles O42: the slots of the sequence are computed command by command; the changed slot is the one ATTACH found. -/
theorem firstFreeSlot : Obligations.FirstFreeSlot := by
  refine ⟨fun p a b c d ha hb hc hd hab => ?sequence, fun l s t k h hne => ?lowest⟩
  case sequence =>
    rw [execAll_cons (exec_attach_free (k := 0) ha rfl), execAll_cons (exec_attach_free (k := 1) hb rfl),
      execAll_cons (exec_attach_free (k := 2) hc rfl), execAll_cons (exec_detach_found (k := 1) hb ?holding),
      execAll_cons (exec_attach_free (k := 1) hd rfl)]
    · exact ⟨_, rfl, rfl⟩
    case holding => exact State.firstHolding_eq_some.2 ⟨rfl, by simpa [Fin.forall_fin_succ, State.resetOf] using hab⟩
  case lowest =>
    obtain ⟨l', k', hi, hk, rfl⟩ | ⟨l', k', hi, -, -⟩ | ⟨hslots, -⟩ := exec_answered_slots (answered_of_next h)
    · cases hi
      have hslot : ((s.setSlot k' (some l)).setMask l 0).replyOk.slots[k] = if k = k' then some l else s.slots[k] :=
        State.setSlot_getElem s k' k (some l)
      obtain rfl : k = k' := by_contra fun hkk => hne (hslot.trans (if_neg hkk))
      obtain ⟨hfree, hbelow⟩ := State.firstFree_eq_some.1 hk
      exact ⟨hfree, hslot.trans (if_pos rfl), hbelow⟩
    · cases hi
    · exact absurd (by rw [hslots]) hne

/-- Settles O43, by the number of valid slots: ATTACH answers OK exactly while it is below four. -/
theorem registryCapacity : Obligations.RegistryCapacity := by
  refine ⟨fun s a b c d e hfree ha hb hc hd he => ?capacity, fun i s t h => exec_answered_validSlots h⟩
  case capacity =>
    have hzero : s.validSlots = 0 := State.validSlots_eq_zero hfree
    obtain ⟨t, ht, hparams, hcount, hresp⟩ :=
      execAll_attach (ls := [a, b, c, d]) (s := s) (by simp [ha, hb, hc, hd]) (by rw [hzero]; rfl)
    rw [hzero] at hcount
    refine ⟨t, ht, hresp, exec_attach_full (hparams ▸ he) (State.firstFree_eq_none_iff_validSlots.2 hcount), ?_⟩
    intro x u hu hok
    have hu := answered_of_next hu
    obtain ⟨-, hdown, -⟩ := exec_answered_validSlots hu
    have hroom : u.validSlots + 1 = 4 := (hdown rfl hok).trans hcount
    exact exec_attach_ok (by rwa [exec_answered_params hu, hparams]) (Nat.lt_of_succ_le hroom.le)

/-- Settles O44: a free slot makes ATTACH succeed, a slot that holds the handle makes DETACH succeed, and of the slots only
the one written changes. -/
theorem duplicateAttach : Obligations.DuplicateAttach := by
  refine ⟨fun l s hinv hl _ hroom => ?attach, fun l s hl hatt => ?detach, fun i s t hs h hi => ?once⟩
  case attach =>
    have hnot : s.firstFree ≠ none := fun hk => absurd (State.isFull_iff_firstFree.2 hk) (by simp [hroom])
    obtain ⟨k, hk⟩ := Option.ne_none_iff_exists'.1 hnot
    have hfree := (State.firstFree_eq_some.1 hk).1
    exact ⟨_, exec_attach_free hl hk, State.slotsHolding_setSlot_some hfree l,
      State.setMask_zero_maskBit (hinv.lmask_length ▸ hl)⟩
  case detach =>
    obtain ⟨k, hk⟩ := State.isAttached_iff_firstHolding.1 hatt
    have hheld := (State.firstHolding_eq_some.1 hk).1
    exact ⟨_, exec_detach_found hl hk, State.slotsHolding_setSlot_none hheld⟩
  case once =>
    obtain ⟨l, k, rfl, -, rfl⟩ | ⟨l, k, -, -, rfl⟩ | ⟨hslots, -⟩ := exec_answered_slots (answered_of_next h)
    · have hnew (j : Fin 4) : s.slots[j] ≠ some l := fun hj =>
        absurd (State.isAttached_iff.2 (mem_slots.2 ⟨j, hj⟩)) (by simp [hi l rfl])
      exact hs.setSlot k fun _ => hnew
    · exact hs.setSlot k fun hne => absurd rfl hne
    · rw [State.NoHandleTwice, hslots]
      exact hs

/-- Settles O40: the three branches of ATTACH, with the slot and the mask it writes. -/
theorem attachEffect : Obligations.AttachEffect := by
  intro l s hinv
  refine ⟨congrArg (fun w => [w]) (headerWord_lid .attach l), fun hl k hk hlow => ?free, fun hl hfull => ?full,
    fun hl => exec_attach_out hl⟩
  case free =>
    have hmask : l.toNat < (s.setSlot k (some l)).lmask.length := hinv.lmask_length ▸ hl
    refine ⟨_, exec_attach_free hl (State.firstFree_eq_some.2 ⟨hk, hlow⟩), fun j => s.setSlot_getElem k j (some l),
      State.setMask_zero_maskBit hmask, fun l' hl' => ?_, by simp, rfl⟩
    exact (State.setMask_maskAt _ l l' 0 hmask).trans (if_neg hl')
  case full => exact exec_attach_full hl (State.firstFree_eq_none.2 hfull)

/-- Settles O41: the three branches of DETACH, with the slot it writes. -/
theorem detachEffect : Obligations.DetachEffect := by
  intro l s
  refine ⟨congrArg (fun w => [w]) (headerWord_lid .detach l), fun hl k hk hlow => ?found, fun hl hnone => ?notFound,
    fun hl => exec_detach_out hl⟩
  case found =>
    exact ⟨_, exec_detach_found hl (State.firstHolding_eq_some.2 ⟨hk, hlow⟩), fun j => s.setSlot_getElem k j none, rfl⟩
  case notFound => exact exec_detach_notFound hl (State.firstHolding_eq_none.2 hnone)

end Sys2Proof.Machine

namespace Sys2Proof

/-- A header word with an index and no handle (R71, R76). -/
theorem headerWord_idx (o : Op) (x : Byte) : headerWord o 0 x = o.code.setWidth 32 ||| x.setWidth 32 <<< 8 := by
  rw [headerWord_eq_or]
  simp

end Sys2Proof

namespace Sys2Proof.Machine

/-! ### The callback commands read and write no listener table (42_callbacks.md R144) -/

/-- The block with the given slots and masks (R27, R28) and all else as in `s`. -/
def State.withListeners (s : State) (slots : Vector (Option Byte) 4) (lmask : List Word) : State :=
  { s with slots := slots, lmask := lmask }

/-- A callback command on a block with other slots and masks does what it does on the block itself, and keeps them. -/
theorem exec_withListeners {i : Instr} (hi : i.op = .setMbcb ∨ i.op = .clrMbcb ∨ i.op = .setGcb) (s : State)
    (slots : Vector (Option Byte) 4) (lmask : List Word) :
    exec i (s.withListeners slots lmask) = mapState (·.withListeners slots lmask) (exec i s) := by
  cases i with
  | setMbcb m w =>
    obtain hm | hm := Nat.lt_or_ge m.toNat s.params.nf
    · rw [exec_setMbcb_in w hm]
      exact exec_setMbcb_in w hm
    · rw [exec_setMbcb_out w hm]
      exact exec_setMbcb_out w hm
  | clrMbcb m =>
    obtain hm | hm := Nat.lt_or_ge m.toNat s.params.nf
    · rw [exec_clrMbcb_in hm]
      exact exec_clrMbcb_in hm
    · rw [exec_clrMbcb_out hm]
      exact exec_clrMbcb_out hm
  | setGcb w => rfl
  | _ => simp at hi

/-! ### The listener commands read and write no callback (42_callbacks.md R144) -/

/-- The block with the given callbacks (R25, R26) and all else as in `s`. -/
def State.withCallbacks (s : State) (mbcb : List (Option Word)) (gcb : Option Word) : State :=
  { s with mbcb := mbcb, gcb := gcb }

section OtherCallbacks

variable (s : State) (mbcb : List (Option Word)) (gcb : Option Word)

theorem exec_attach_withCallbacks (l : Byte) :
    exec (.attach l) (s.withCallbacks mbcb gcb) = mapState (·.withCallbacks mbcb gcb) (exec (.attach l) s) := by
  obtain hl | hl := Nat.lt_or_ge l.toNat s.params.nl
  · cases hk : s.firstFree with
    | none =>
      rw [exec_attach_full hl hk]
      exact exec_attach_full hl hk
    | some k =>
      rw [exec_attach_free hl hk]
      exact exec_attach_free hl hk
  · rw [exec_attach_out hl]
    exact exec_attach_out hl

theorem exec_detach_withCallbacks (l : Byte) :
    exec (.detach l) (s.withCallbacks mbcb gcb) = mapState (·.withCallbacks mbcb gcb) (exec (.detach l) s) := by
  obtain hl | hl := Nat.lt_or_ge l.toNat s.params.nl
  · cases hk : s.firstHolding l with
    | none =>
      rw [exec_detach_notFound hl hk]
      exact exec_detach_notFound hl hk
    | some k =>
      rw [exec_detach_found hl hk]
      exact exec_detach_found hl hk
  · rw [exec_detach_out hl]
    exact exec_detach_out hl

theorem writeMailboxBit_withCallbacks (b : Bool) (l m : Byte) :
    writeMailboxBit b l m (s.withCallbacks mbcb gcb) =
      mapState (·.withCallbacks mbcb gcb) (writeMailboxBit b l m s) := by
  obtain hl | hl := Nat.lt_or_ge l.toNat s.params.nl
  · obtain hm | hm := Nat.lt_or_ge m.toNat s.params.nf
    · rw [writeMailboxBit_in b hl hm]
      exact writeMailboxBit_in b hl hm
    · rw [writeMailboxBit_badMailbox b hl hm]
      exact writeMailboxBit_badMailbox b hl hm
  · rw [writeMailboxBit_out b m hl]
    exact writeMailboxBit_out b m hl

theorem writeGeneralBit_withCallbacks (b : Bool) (l : Byte) :
    writeGeneralBit b l (s.withCallbacks mbcb gcb) = mapState (·.withCallbacks mbcb gcb) (writeGeneralBit b l s) := by
  obtain hl | hl := Nat.lt_or_ge l.toNat s.params.nl
  · rw [writeGeneralBit_in b hl]
    exact writeGeneralBit_in b hl
  · rw [writeGeneralBit_out b hl]
    exact writeGeneralBit_out b hl

theorem exec_isEn_withCallbacks (l j : Byte) :
    exec (.isEn l j) (s.withCallbacks mbcb gcb) = mapState (·.withCallbacks mbcb gcb) (exec (.isEn l j) s) := by
  obtain hl | hl := Nat.lt_or_ge l.toNat s.params.nl
  · obtain hj | hj := le_or_gt j.toNat s.params.nf
    · rw [exec_isEn_in hl hj]
      exact exec_isEn_in hl hj
    · rw [exec_isEn_badBit hl hj]
      exact exec_isEn_badBit hl hj
  · rw [exec_isEn_out j hl]
    exact exec_isEn_out j hl

/-- A listener command on a block with other callbacks does what it does on the block itself, and keeps them. -/
theorem exec_withCallbacks {i : Instr}
    (hi : i.op = .attach ∨ i.op = .detach ∨ i.op = .enMb ∨ i.op = .disMb ∨ i.op = .enGen ∨ i.op = .disGen ∨
      i.op = .isEn) :
    exec i (s.withCallbacks mbcb gcb) = mapState (·.withCallbacks mbcb gcb) (exec i s) := by
  cases i with
  | attach l => exact exec_attach_withCallbacks s mbcb gcb l
  | detach l => exact exec_detach_withCallbacks s mbcb gcb l
  | enMb l m => exact writeMailboxBit_withCallbacks s mbcb gcb true l m
  | disMb l m => exact writeMailboxBit_withCallbacks s mbcb gcb false l m
  | enGen l => exact writeGeneralBit_withCallbacks s mbcb gcb true l
  | disGen l => exact writeGeneralBit_withCallbacks s mbcb gcb false l
  | isEn l j => exact exec_isEn_withCallbacks s mbcb gcb l j
  | _ => simp at hi

end OtherCallbacks

/-- Settles O39: in every branch, replacing the other family's tables commutes with the command. -/
theorem callbacksApartFromListeners : Obligations.CallbacksApartFromListeners :=
  ⟨fun _ s slots lmask hi => exec_withListeners hi s slots lmask,
    fun _ s mbcb gcb hi => exec_withCallbacks s mbcb gcb hi⟩

/-! ### The statements about the callback commands (42_callbacks.md) -/

/-- The mailbox callback table has an entry for each mailbox (R24). -/
theorem State.Inv.mbcb_length {s : State} (h : s.Inv) : s.mbcb.length = s.params.nf := by
  obtain ⟨-, hmbcb, -⟩ := h
  exact hmbcb

/-- Settles O36: the two branches of SET.MBCB, with the entry it writes. -/
theorem setMbcbEffect : Obligations.SetMbcbEffect := by
  intro m h s hinv
  refine ⟨congrArg (fun w => [w, h]) (headerWord_idx .setMbcb m), fun hm => ?_, fun hm => exec_setMbcb_out h hm⟩
  exact ⟨_, exec_setMbcb_in h hm, fun n => s.setMbcbAt_mbcbAt m n (some h) (hinv.mbcb_length ▸ hm),
    by simp, rfl⟩

/-- Settles O37: the two branches of CLR.MBCB, with the entry it clears, whether or not it held a token. -/
theorem clrMbcbEffect : Obligations.ClrMbcbEffect := by
  intro m s hinv
  refine ⟨congrArg (fun w => [w]) (headerWord_idx .clrMbcb m), fun hm => ?_, fun hm => exec_clrMbcb_out hm⟩
  exact ⟨_, exec_clrMbcb_in hm, fun n => s.setMbcbAt_mbcbAt m n none (hinv.mbcb_length ▸ hm), by simp, rfl⟩

/-- SET.GCB has no condition on its operand: every token is legal (R140, R143). -/
theorem exec_setGcb (h : Word) (s : State) : exec (.setGcb h) s = .next (s.setGcb h).replyOk := rfl

/-- Settles O38: GCB_PRESENT is `GCB.v`, and SET.GCB makes GCB valid. -/
theorem setGcbEffect : Obligations.SetGcbEffect := by
  intro h s
  have hpresent : (s.setGcb h).replyOk.gcbPresent = true := by simp [State.gcbPresent]
  exact ⟨rfl, _, exec_setGcb h s, hpresent, rfl⟩

end Sys2Proof.Machine

namespace Sys2Proof.Machine

/-! ### One mask bit (10_state.md R28, 43_listener_masks.md R151 to R154) -/

/-- A mask has its general bit, bit NF, in its word (00_scope.md R6). -/
theorem State.Inv.nf_lt {s : State} (h : s.Inv) : s.params.nf < 32 := by
  obtain ⟨⟨-, hnf, -⟩, -⟩ := h
  exact Nat.lt_succ_of_le hnf

/-- A handle in a byte can name every mask (00_scope.md R6). -/
theorem State.Inv.lmask_length_le {s : State} (h : s.Inv) : s.lmask.length ≤ 256 := by
  obtain ⟨⟨-, -, -, hnl⟩, -, hlen, -⟩ := h
  exact hlen.trans_le hnl

/-- In a well-shaped block a write of an existing bit changes that bit alone. -/
theorem State.Inv.setMaskBit_maskBit {s : State} (h : s.Inv) {l : Byte} (hl : l.toNat < s.params.nl) {i : Nat}
    (hi : i ≤ s.params.nf) (b : Bool) (k : Byte) (j : Nat) :
    (s.setMaskBit l i b).maskBit k j = if k = l ∧ j = i then b else s.maskBit k j :=
  State.setMaskBit_maskBit s l k i j b (h.lmask_length ▸ hl) (Nat.lt_of_le_of_lt hi h.nf_lt)

@[simp] theorem State.replyOk_maskBit (s : State) (l : Byte) (j : Nat) : s.replyOk.maskBit l j = s.maskBit l j := rfl

/-- The masks are known by their bits, as long as a handle can name each of them. -/
theorem State.lmask_ext {s t : State} (hlen : s.lmask.length = t.lmask.length) (hle : s.lmask.length ≤ 256)
    (hbit : ∀ k j, s.maskBit k j = t.maskBit k j) : s.lmask = t.lmask := by
  refine List.ext_getElem hlen fun n hs ht => BitVec.eq_of_getLsbD_eq fun j _ => ?_
  have hn : (BitVec.ofNat 8 n).toNat = n := Nat.mod_eq_of_lt (Nat.lt_of_lt_of_le hs hle)
  simpa [State.maskBit, State.maskAt, hn, List.getD, hs, ht] using hbit (BitVec.ofNat 8 n) j

/-! ### The mask commands by the bit they write -/

/-- EN.MB and DIS.MB are the two writes of a mailbox bit. -/
theorem exec_mailboxBit (b : Bool) (l m : Byte) (s : State) :
    exec (if b then .enMb l m else .disMb l m) s = writeMailboxBit b l m s := by
  cases b with
  | true => rfl
  | false => rfl

/-- EN.GEN and DIS.GEN are the two writes of the general bit. -/
theorem exec_generalBit (b : Bool) (l : Byte) (s : State) :
    exec (if b then .enGen l else .disGen l) s = writeGeneralBit b l s := by
  cases b with
  | true => rfl
  | false => rfl

/-- On every block with parameters `p` the command gives bit `j` of the mask of `l` the value `b` and answers OK. -/
def WritesMaskBit (p : Params) (i : Instr) (l : Byte) (j : Nat) (b : Bool) : Prop :=
  ∀ s : State, s.params = p → exec i s = .next (s.setMaskBit l j b).replyOk

/-- EN.MB and DIS.MB write the bit of their mailbox (R151, R152). -/
theorem writesMaskBit_mailbox {p : Params} {l m : Byte} (b : Bool) (hl : l.toNat < p.nl) (hm : m.toNat < p.nf) :
    WritesMaskBit p (if b then .enMb l m else .disMb l m) l m.toNat b := by
  rintro s rfl
  exact (exec_mailboxBit b l m s).trans (writeMailboxBit_in b hl hm)

/-- EN.GEN and DIS.GEN write the general bit (R153, R154). -/
theorem writesMaskBit_general {p : Params} {l : Byte} (b : Bool) (hl : l.toNat < p.nl) :
    WritesMaskBit p (if b then .enGen l else .disGen l) l p.nf b := by
  rintro s rfl
  exact (exec_generalBit b l s).trans (writeGeneralBit_in b hl)

/-- The four mask commands of a handle and a mailbox, each with the bit it writes. -/
def maskWrites (nf : Nat) (l m : Byte) : List (Instr × Nat) :=
  [(.enMb l m, m.toNat), (.disMb l m, m.toNat), (.enGen l, nf), (.disGen l, nf)]

/-- Each of them writes the bit that stands beside it, which exists. -/
theorem writesMaskBit_of_mem {p : Params} {l m : Byte} (hl : l.toNat < p.nl) (hm : m.toNat < p.nf) {i : Instr} {j : Nat}
    (h : (i, j) ∈ maskWrites p.nf l m) : j ≤ p.nf ∧ ∃ b, WritesMaskBit p i l j b := by
  simp only [maskWrites, List.mem_cons, Prod.mk.injEq, List.not_mem_nil, or_false] at h
  obtain ⟨rfl, rfl⟩ | ⟨rfl, rfl⟩ | ⟨rfl, rfl⟩ | ⟨rfl, rfl⟩ := h
  · exact ⟨hm.le, true, writesMaskBit_mailbox true hl hm⟩
  · exact ⟨hm.le, false, writesMaskBit_mailbox false hl hm⟩
  · exact ⟨le_rfl, true, writesMaskBit_general true hl⟩
  · exact ⟨le_rfl, false, writesMaskBit_general false hl⟩

/-- The bit of a mailbox, or the general bit where none is named (R28). -/
def maskIndex (nf : Nat) (o : Option Byte) : Nat := o.elim nf (·.toNat)

/-- No mailbox shares its bit with another mailbox or with the general bit. -/
theorem maskIndex_inj {nf : Nat} {o o' : Option Byte} (ho : ∀ m, o = some m → m.toNat < nf)
    (ho' : ∀ m, o' = some m → m.toNat < nf) (h : maskIndex nf o = maskIndex nf o') : o = o' := by
  cases o with
  | none =>
    cases o' with
    | none => rfl
    | some m' => exact absurd h (ho' m' rfl).ne'
  | some m =>
    cases o' with
    | none => exact absurd h (ho m rfl).ne
    | some m' => exact congrArg some (BitVec.eq_of_toNat_eq h)

/-- The mailbox that a mask command on mailbox `m` names: `m`, or none where it writes the general bit. -/
def mailboxNamed (i : Instr) (m : Byte) : Option Byte := if i.op = .enMb ∨ i.op = .disMb then some m else none

theorem mailboxNamed_lt {nf : Nat} {m : Byte} (hm : m.toNat < nf) (i : Instr) :
    ∀ m', mailboxNamed i m = some m' → m'.toNat < nf := by
  intro m' h
  obtain ⟨-, h⟩ := Option.ite_none_right_eq_some.1 h
  cases h
  exact hm

/-- The bit a mask command writes is that of the mailbox it names, or the general bit. -/
theorem mem_maskWrites {nf : Nat} {l m : Byte} {i : Instr} (h : i ∈ [Instr.enMb l m, .disMb l m, .enGen l, .disGen l]) :
    (i, maskIndex nf (mailboxNamed i m)) ∈ maskWrites nf l m := by
  simp only [List.mem_cons, List.not_mem_nil, or_false] at h
  obtain rfl | rfl | rfl | rfl := h
  · exact .head _
  · exact .tail _ (.head _)
  · exact .tail _ (.tail _ (.head _))
  · exact .tail _ (.tail _ (.tail _ (.head _)))

/-! ### What the writes of mask bits do one after another (43_listener_masks.md R156) -/

section WritesInOrder

variable {s : State} {i i' : Instr} {l l' : Byte} {j j' : Nat} {b b' : Bool}

theorem WritesMaskBit.masks_one (h : WritesMaskBit s.params i l j b) :
    (execAll [i] s).map (·.lmask) = some (s.setMaskBit l j b).lmask := by
  rw [execAll_cons (h s rfl)]
  rfl

theorem WritesMaskBit.masks_two (h : WritesMaskBit s.params i l j b) (h' : WritesMaskBit s.params i' l' j' b') :
    (execAll [i, i'] s).map (·.lmask) = some ((s.setMaskBit l j b).setMaskBit l' j' b').lmask := by
  rw [execAll_cons (h s rfl), execAll_cons (h' (s.setMaskBit l j b).replyOk rfl)]
  rfl

/-- IS.EN of the bit just written answers the value written. -/
theorem WritesMaskBit.readBack {x : Byte} (h : WritesMaskBit s.params i l j b) (hs : s.Inv)
    (hl : l.toNat < s.params.nl) (hx : x.toNat = j) (hj : j ≤ s.params.nf) :
    ∃ t, exec i s = .next t ∧ lastResponse (exec (.isEn l x) t) = some ⟨.ok, boolWord b, 0, 0⟩ := by
  subst hx
  refine ⟨_, h s rfl, ?_⟩
  rw [exec_isEn_in (s := (s.setMaskBit l x.toNat b).replyOk) hl hj, State.replyOk_maskBit,
    hs.setMaskBit_maskBit hl hj b, if_pos ⟨rfl, rfl⟩]
  exact lastResponse_of_answered rfl

variable (hs : s.Inv) (hl : l.toNat < s.params.nl) (hj : j ≤ s.params.nf)
include hs hl hj

/-- Writing a bit a second time with the same value changes nothing. -/
theorem State.setMaskBit_twice_lmask : ((s.setMaskBit l j b).setMaskBit l j b).lmask = (s.setMaskBit l j b).lmask := by
  have hs' : (s.setMaskBit l j b).Inv := hs.setMaskBit l j b hj
  refine State.lmask_ext List.length_set (hs'.setMaskBit l j b hj).lmask_length_le fun k n => ?_
  rw [hs'.setMaskBit_maskBit hl hj, hs.setMaskBit_maskBit hl hj]
  split <;> rfl

/-- Writes of different bits, or of bits of different listeners, may be exchanged. -/
theorem State.setMaskBit_comm_lmask (hl' : l'.toNat < s.params.nl) (hj' : j' ≤ s.params.nf) (hne : l ≠ l' ∨ j ≠ j') :
    ((s.setMaskBit l j b).setMaskBit l' j' b').lmask = ((s.setMaskBit l' j' b').setMaskBit l j b).lmask := by
  have hs₁ : (s.setMaskBit l j b).Inv := hs.setMaskBit l j b hj
  have hs₂ : (s.setMaskBit l' j' b').Inv := hs.setMaskBit l' j' b' hj'
  refine State.lmask_ext (by simp) (hs₁.setMaskBit l' j' b' hj').lmask_length_le fun k n => ?_
  rw [hs₁.setMaskBit_maskBit hl' hj', hs₂.setMaskBit_maskBit hl hj, hs.setMaskBit_maskBit hl hj,
    hs.setMaskBit_maskBit hl' hj']
  by_cases hk : k = l ∧ n = j
  · obtain ⟨rfl, rfl⟩ := hk
    simp [not_and_or.2 hne]
  · rw [if_neg hk, if_neg hk]

end WritesInOrder

/-! ### The statements about the mask commands (43_listener_masks.md) -/

/-- Settles O48: each mask command writes one bit, and the masks are known by their bits. -/
theorem maskLaws : Obligations.MaskLaws := by
  intro s l m hs hl hm gen reads masksAfter
  have hgen : gen.toNat = s.params.nf := Nat.mod_eq_of_lt (hs.nf_lt.trans (by decide))
  refine ⟨⟨?enMb, ?disMb, ?enGen, ?disGen⟩, ?others, ?twice, ?commute⟩
  case enMb => exact (writesMaskBit_mailbox true hl hm).readBack hs hl rfl hm.le
  case disMb => exact (writesMaskBit_mailbox false hl hm).readBack hs hl rfl hm.le
  case enGen => exact (writesMaskBit_general true hl).readBack hs hl hgen le_rfl
  case disGen => exact (writesMaskBit_general false hl).readBack hs hl hgen le_rfl
  case others =>
    intro i j t hmem ht k n hne
    obtain ⟨hj, b, hw⟩ := writesMaskBit_of_mem hl hm hmem
    cases ht.symm.trans (hw s rfl)
    rw [State.replyOk_maskBit, hs.setMaskBit_maskBit hl hj, if_neg (by simpa using hne)]
  case twice =>
    intro i hi
    obtain ⟨hj, b, hw⟩ := writesMaskBit_of_mem hl hm (mem_maskWrites hi)
    exact (hw.masks_two hw).trans <|
      (congrArg some (State.setMaskBit_twice_lmask hs hl hj)).trans hw.masks_one.symm
  case commute =>
    intro l' m' hl' hm' i hi i' hi' hne
    obtain ⟨hj, b, hw⟩ := writesMaskBit_of_mem hl hm (mem_maskWrites hi)
    obtain ⟨hj', b', hw'⟩ := writesMaskBit_of_mem hl' hm' (mem_maskWrites hi')
    have hbits := hne.imp_right (mt (maskIndex_inj (mailboxNamed_lt hm i) (mailboxNamed_lt hm' i')))
    exact (hw.masks_two hw').trans <|
      (congrArg some (State.setMaskBit_comm_lmask hs hl hj hl' hj' hbits)).trans (hw'.masks_two hw).symm

/-- Settles O45: the three branches of EN.MB and DIS.MB, with the bit they write. -/
theorem mailboxBitEffect : Obligations.MailboxBitEffect := by
  rintro l m b i s hs rfl
  rw [exec_mailboxBit]
  refine ⟨?encoding, fun hl hm => ?written, fun hl hm => writeMailboxBit_badMailbox b hl hm,
    fun hl => writeMailboxBit_out b m hl⟩
  case encoding =>
    cases b with
    | true => exact congrArg (fun w => [w]) (headerWord_eq_or .enMb l m)
    | false => exact congrArg (fun w => [w]) (headerWord_eq_or .disMb l m)
  case written =>
    exact ⟨_, writeMailboxBit_in b hl hm, hs.setMaskBit_maskBit hl hm.le b, by simp, rfl⟩

/-- Settles O46: the two branches of EN.GEN and DIS.GEN, with the bit they write. -/
theorem generalBitEffect : Obligations.GeneralBitEffect := by
  rintro l b i s hs rfl
  rw [exec_generalBit]
  refine ⟨?encoding, fun hl => ?written, fun hl => writeGeneralBit_out b hl⟩
  case encoding =>
    cases b with
    | true => exact congrArg (fun w => [w]) (headerWord_lid .enGen l)
    | false => exact congrArg (fun w => [w]) (headerWord_lid .disGen l)
  case written =>
    exact ⟨_, writeGeneralBit_in b hl, hs.setMaskBit_maskBit hl le_rfl b, by simp, rfl⟩

/-- Settles O47: the three branches of IS.EN; the handle is looked at before the index. -/
theorem isEnReply : Obligations.IsEnReply := fun l i _ =>
  ⟨congrArg (fun w => [w]) (headerWord_eq_or .isEn l i), fun hl hi => exec_isEn_in hl hi, fun hl => exec_isEn_out i hl,
    fun hl hi => exec_isEn_badBit hl hi⟩

end Sys2Proof.Machine

namespace Sys2Proof.Machine

/-! ### The state after DISPATCH (44_dispatch.md R166, R171, R175) -/

/-- The block after a DISPATCH of one of its mailboxes, as a whole. -/
def State.dispatched (s : State) (m : Byte) (f : Frame) : State :=
  { s with
    drops := if (deliveries s m f).length = 0 then s.drops + 1 else s.drops
    events := s.events ++ deliveries s m f
    responses := s.responses ++ [⟨.ok, BitVec.ofNat 32 (deliveries s m f).length, 0, 0⟩] }

theorem exec_dispatch_eq {s : State} {m : Byte} (f : Frame) (hm : m.toNat < s.params.nf) :
    exec (.dispatch m f) s = .next (s.dispatched m f) := by
  rw [exec_dispatch_in f hm, State.dispatched]
  cases deliveries s m f with
  | nil => simp [State.countDrop, State.reply]
  | cons e es => simp [State.emit, State.reply]

/-- DISPATCH leaves what it decides on, so the next one decides the same (R175). -/
theorem deliveries_dispatched (s : State) (m n : Byte) (f g : Frame) :
    deliveries (s.dispatched m f) n g = deliveries s n g := rfl

/-! ### The four steps in the form of R166 -/

theorem mailboxCallbackEvents_eq (s : State) (m : Byte) (f : Frame) :
    mailboxCallbackEvents s m f = (s.mbcbAt m).toList.map fun h => .deliv .cbMb m h f := by
  unfold mailboxCallbackEvents
  cases s.mbcbAt m <;> rfl

theorem generalCallbackEvents_eq (s : State) (m : Byte) (f : Frame) :
    generalCallbackEvents s m f = if s.mbcbAt m = none then s.gcb.toList.map fun h => .deliv .cbGen m h f else [] := by
  unfold generalCallbackEvents
  cases s.mbcbAt m <;> cases s.gcb <;> rfl

theorem mailboxListenerEvents_flatMap (s : State) (m : Byte) (f : Frame) :
    mailboxListenerEvents s m f = s.slots.toList.flatMap fun o => o.toList.flatMap fun l =>
      if s.maskBit l m.toNat = true then [.deliv .lsMb m (l.setWidth 32) f] else [] := by
  rw [mailboxListenerEvents_eq, List.filterMap_eq_flatMap_toList]
  congr 1; funext o
  cases o with
  | none => rfl
  | some l => cases hmb : s.maskBit l m.toNat <;> simp [mailboxListenerEvent, hmb]

theorem generalListenerEvents_flatMap (s : State) (m : Byte) (f : Frame) :
    generalListenerEvents s m f = s.slots.toList.flatMap fun o => o.toList.flatMap fun l =>
      if s.maskBit l m.toNat = false ∧ s.maskBit l s.params.nf = true then [.deliv .lsGen m (l.setWidth 32) f]
      else [] := by
  rw [generalListenerEvents_eq, List.filterMap_eq_flatMap_toList]
  congr 1; funext o
  cases o with
  | none => rfl
  | some l =>
    cases hmb : s.maskBit l m.toNat <;> cases hgen : s.maskBit l s.params.nf <;> simp [generalListenerEvent, hmb, hgen]

/-- Settles O49: the state after DISPATCH, with each of the four steps in the form of R166. -/
theorem dispatchEffect : Obligations.DispatchEffect := by
  intro m f s
  refine ⟨congrArg (· :: _) (headerWord_idx .dispatch m), fun hm => ?inDomain, fun hm => exec_dispatch_out f hm⟩
  case inDomain =>
    intro step1 step2 step3 step4 es
    have hes : deliveries s m f = es := by
      rw [deliveries, mailboxCallbackEvents_eq, mailboxListenerEvents_flatMap, generalCallbackEvents_eq,
        generalListenerEvents_flatMap]
    rw [exec_dispatch_eq f hm, State.dispatched, hes]

/-- Settles O56: the header of RD.DROP has 0 in every field but the opcode. -/
theorem rdDropReply : Obligations.RdDropReply := fun _ => ⟨rfl, rfl⟩

/-! ### The two columns of the decision table (44_dispatch.md R178) -/

/-- The callback column: the one callback that the frame reaches, if any. -/
def callbackDelivery (s : State) (m : Byte) (f : Frame) : Option Event :=
  match s.mbcbAt m with
  | some h => some (.deliv .cbMb m h f)
  | none => s.gcb.map fun h => .deliv .cbGen m h f

/-- A slot's column: the one delivery that the slot produces, if any (R170). -/
def slotDelivery (s : State) (m : Byte) (f : Frame) : Option Byte → Option Event
  | none => none
  | some l =>
    if s.maskBit l m.toNat then some (.deliv .lsMb m (l.setWidth 32) f)
    else if s.maskBit l s.params.nf then some (.deliv .lsGen m (l.setWidth 32) f)
    else none

/-- A choice that is the same for all members takes all or none. -/
theorem filter_of_forall_eq {α : Type} {p : α → Bool} {b : Bool} {as : List α} (h : ∀ a ∈ as, p a = b) :
    as.filter p = if b then as else [] := by
  cases b with
  | true => exact List.filter_eq_self.2 h
  | false => exact List.filter_eq_nil_iff.2 fun a ha => Bool.eq_false_iff.1 (h a ha)

section Columns

variable (s : State) (m : Byte) (f : Frame)

theorem callbackEvents_eq_toList :
    mailboxCallbackEvents s m f ++ generalCallbackEvents s m f = (callbackDelivery s m f).toList := by
  unfold mailboxCallbackEvents generalCallbackEvents callbackDelivery
  cases s.mbcbAt m <;> cases s.gcb <;> rfl

/-- Steps (2) and (4) share the listeners out between them. -/
theorem listenerEvent_toList (o : Option Byte) :
    (mailboxListenerEvent s m f o).toList ++ (generalListenerEvent s m f o).toList =
      (slotDelivery s m f o).toList := by
  cases o with
  | none => rfl
  | some l =>
    cases hmb : s.maskBit l m.toNat <;> cases hgen : s.maskBit l s.params.nf <;>
      simp [mailboxListenerEvent, generalListenerEvent, slotDelivery, hmb, hgen]

theorem listenerEvents_perm :
    (mailboxListenerEvents s m f ++ generalListenerEvents s m f).Perm
      (s.slots.toList.filterMap (slotDelivery s m f)) := by
  rw [mailboxListenerEvents_eq, generalListenerEvents_eq]
  simp only [List.filterMap_eq_flatMap_toList, ← listenerEvent_toList]
  exact List.flatMap_append_perm _ _ _

variable {s m f} {e : Event}

theorem listener?_of_mem_mailboxCallbackEvents (he : e ∈ mailboxCallbackEvents s m f) : e.listener? = none := by
  obtain ⟨h, -, rfl⟩ := mem_mailboxCallbackEvents.1 he; rfl

theorem listener?_of_mem_generalCallbackEvents (he : e ∈ generalCallbackEvents s m f) : e.listener? = none := by
  obtain ⟨h, -, -, rfl⟩ := mem_generalCallbackEvents.1 he; rfl

theorem listener?_of_mem_mailboxListenerEvents (he : e ∈ mailboxListenerEvents s m f) : e.listener?.isSome := by
  obtain ⟨l, -, -, rfl⟩ := mem_mailboxListenerEvents.1 he; rfl

theorem listener?_of_mem_generalListenerEvents (he : e ∈ generalListenerEvents s m f) : e.listener?.isSome := by
  obtain ⟨l, -, -, -, rfl⟩ := mem_generalListenerEvents.1 he; rfl

/-- A choice that takes callbacks and listeners apart leaves steps (1) and (3), or steps (2) and (4). -/
theorem filter_deliveries (s : State) (m : Byte) (f : Frame) {p : Event → Bool} {b : Bool}
    (hcb : ∀ e, e.listener? = none → p e = b) (hls : ∀ e, e.listener?.isSome → p e = !b) :
    (deliveries s m f).filter p =
      if b then mailboxCallbackEvents s m f ++ generalCallbackEvents s m f
      else mailboxListenerEvents s m f ++ generalListenerEvents s m f := by
  rw [deliveries, List.filter_append, List.filter_append, List.filter_append,
    filter_of_forall_eq fun e he => hcb e (listener?_of_mem_mailboxCallbackEvents he),
    filter_of_forall_eq fun e he => hls e (listener?_of_mem_mailboxListenerEvents he),
    filter_of_forall_eq fun e he => hcb e (listener?_of_mem_generalCallbackEvents he),
    filter_of_forall_eq fun e he => hls e (listener?_of_mem_generalListenerEvents he)]
  cases b <;> simp

variable (s m f)

/-- The callback events are those of the callback column. -/
theorem deliveries_callbacks :
    ((deliveries s m f).filter fun e => e.listener?.isNone) = (callbackDelivery s m f).toList := by
  rw [filter_deliveries (b := true) s m f (fun e he => by simp [he]) fun e he => by simpa using he, if_pos rfl,
    callbackEvents_eq_toList]

/-- The deliveries to listeners are those of the slots' columns. -/
theorem deliveries_listeners :
    ((deliveries s m f).filter fun e => e.listener?.isSome).Perm (s.slots.toList.filterMap (slotDelivery s m f)) := by
  rw [filter_deliveries (b := false) s m f (fun e he => by simp [he]) fun e he => he]
  exact listenerEvents_perm s m f

/-- All deliveries are those of the callback column and of the slots' columns. -/
theorem deliveries_perm :
    (deliveries s m f).Perm ((callbackDelivery s m f).toList ++ s.slots.toList.filterMap (slotDelivery s m f)) := by
  rw [← deliveries_callbacks]
  refine (List.filter_append_perm (fun e : Event => e.listener?.isNone) _).symm.trans (List.Perm.append_left _ ?_)
  simpa using deliveries_listeners s m f

end Columns

/-- Settles O50: the two columns, row by row. -/
theorem decisionTable : Obligations.DecisionTable := by
  intro m f s hm
  refine ⟨_, _, exec_dispatch_eq f hm, rfl, (deliveries_callbacks s m f).trans ?callback,
    (deliveries_listeners s m f).trans (.of_eq ?slots)⟩
  case callback =>
    unfold callbackDelivery
    cases s.mbcbAt m <;> cases s.gcb <;> rfl
  case slots =>
    rw [List.filterMap_eq_flatMap_toList]
    congr 1; funext o
    cases o with
    | none => rfl
    | some l =>
      cases hmb : s.maskBit l m.toNat <;> cases hgen : s.maskBit l s.params.nf <;> simp [slotDelivery, hmb, hgen]

/-! ### When each kind of delivery occurs (44_dispatch.md R167 to R169) -/

/-- A delivery is emitted by one of the four steps. -/
theorem mem_deliveries {s : State} {m : Byte} {f : Frame} {e : Event} :
    e ∈ deliveries s m f ↔
      (∃ h, s.mbcbAt m = some h ∧ e = .deliv .cbMb m h f) ∨
      (∃ l, some l ∈ s.slots.toList ∧ s.maskBit l m.toNat = true ∧ e = .deliv .lsMb m (l.setWidth 32) f) ∨
      (∃ h, s.mbcbAt m = none ∧ s.gcb = some h ∧ e = .deliv .cbGen m h f) ∨
      (∃ l, some l ∈ s.slots.toList ∧ s.maskBit l m.toNat = false ∧ s.maskBit l s.params.nf = true ∧
        e = .deliv .lsGen m (l.setWidth 32) f) := by
  simp only [deliveries, List.mem_append, mem_mailboxCallbackEvents, mem_mailboxListenerEvents,
    mem_generalCallbackEvents, mem_generalListenerEvents, or_assoc]

/-- Settles O51: a delivery of one kind comes from the one step that emits that kind. -/
theorem deliveryConditions : Obligations.DeliveryConditions := by
  intro m f s hm
  refine ⟨_, _, exec_dispatch_eq f hm, rfl, fun h => ?cbMb, fun h => ?cbGen, fun l => ?lsMb, fun l => ?lsGen⟩
  case cbMb => simp [mem_deliveries]
  case cbGen => simp [mem_deliveries]
  case lsMb => simp [mem_deliveries, handleWord_inj, State.isAttached_iff]
  case lsGen => simp [mem_deliveries, handleWord_inj, State.isAttached_iff]

/-! ### A frame that reaches nobody (44_dispatch.md R171) -/

section Drops

variable {s : State} {m : Byte} {f : Frame}

theorem callbackDelivery_eq_none : callbackDelivery s m f = none ↔ s.mbcbAt m = none ∧ s.gcb = none := by
  unfold callbackDelivery
  cases s.mbcbAt m <;> simp

theorem slotDelivery_eq_none {l : Byte} :
    slotDelivery s m f (some l) = none ↔ s.maskBit l m.toNat = false ∧ s.maskBit l s.params.nf = false := by
  cases hmb : s.maskBit l m.toNat <;> cases hgen : s.maskBit l s.params.nf <;> simp [slotDelivery, hmb, hgen]

/-- Nobody is interested in mailbox m: no callback, and no listener that a slot holds. -/
theorem deliveries_eq_nil :
    deliveries s m f = [] ↔ s.mbcbAt m = none ∧ s.gcb = none ∧
      ∀ (i : Fin 4) (l : Byte), s.slots[i] = some l →
        s.maskBit l m.toNat = false ∧ s.maskBit l s.params.nf = false := by
  have hslots : s.slots.toList.filterMap (slotDelivery s m f) = [] ↔
      ∀ (i : Fin 4) (l : Byte), s.slots[i] = some l → slotDelivery s m f (some l) = none := by
    rw [List.filterMap_eq_nil_iff]
    constructor
    · intro h i l hl
      exact h _ (mem_slots.2 ⟨i, hl⟩)
    · intro h o ho
      obtain ⟨i, hi⟩ := mem_slots.1 ho
      cases o with
      | none => rfl
      | some l => exact h i l hi
  rw [← List.length_eq_zero_iff, (deliveries_perm s m f).length_eq, List.length_eq_zero_iff, List.append_eq_nil_iff,
    hslots, Option.toList_eq_nil_iff, callbackDelivery_eq_none, and_assoc]
  simp only [slotDelivery_eq_none]

end Drops

/-- Settles O52: without a delivery the drop is counted and nothing but the answer is written besides. -/
theorem dropRule : Obligations.DropRule := by
  intro m f s hm nobody
  have hnil : deliveries s m f = [] ↔ nobody := deliveries_eq_nil
  refine ⟨_, _, _, exec_dispatch_eq f hm, rfl, rfl, rfl, hnil, fun h => ?dropped, fun h => ?delivered⟩
  case dropped => simp [State.dispatched, hnil.2 h]
  case delivered => simp [State.dispatched, mt hnil.1 h]

/-! ### The bounds of one DISPATCH (44_dispatch.md R177) -/

section Bounds

variable (s : State) (m : Byte) (f : Frame)

theorem callbacks_le_one : ((deliveries s m f).countP fun e => e.listener?.isNone) ≤ 1 := by
  rw [List.countP_eq_length_filter, deliveries_callbacks]
  exact Option.length_toList_le

/-- Each valid slot produces at most one delivery, and a free slot none. -/
theorem slotDeliveries_length_le : (s.slots.toList.filterMap (slotDelivery s m f)).length ≤ s.validSlots := by
  rw [List.length_filterMap_eq_countP]
  refine List.countP_mono_left fun o _ ho => ?_
  cases o with
  | none => exact ho
  | some l => rfl

theorem listeners_le_validSlots : ((deliveries s m f).countP fun e => e.listener?.isSome) ≤ s.validSlots := by
  rw [List.countP_eq_length_filter, (deliveries_listeners s m f).length_eq]
  exact slotDeliveries_length_le s m f

/-- One callback and four slots. -/
theorem deliveries_length_le_five : (deliveries s m f).length ≤ 5 := by
  have hcb : (callbackDelivery s m f).toList.length ≤ 1 := Option.length_toList_le
  have hls := slotDeliveries_length_le s m f
  have hvalid := s.validSlots_le
  rw [(deliveries_perm s m f).length_eq, List.length_append]
  omega

end Bounds

/-- Settles O53: a number up to 5 fits in R0. -/
theorem deliveryBounds : Obligations.DeliveryBounds := by
  intro m f s hm
  have hlen := deliveries_length_le_five s m f
  have hcount : (BitVec.ofNat 32 (deliveries s m f).length).toNat = (deliveries s m f).length :=
    (BitVec.toNat_ofNat _ _).trans (Nat.mod_eq_of_lt (by omega))
  refine ⟨_, _, _, exec_dispatch_eq f hm, rfl, rfl, callbacks_le_one s m f, listeners_le_validSlots s m f, hlen,
    ?number, ?drops⟩
  case number => exact hcount
  case drops =>
    have hzero : BitVec.ofNat 32 (deliveries s m f).length = 0 ↔ (deliveries s m f).length = 0 := by
      rw [BitVec.toNat_eq, hcount]; rfl
    rw [hzero, State.dispatched]
    by_cases hnone : (deliveries s m f).length = 0 <;> simp [hnone]

/-! ### The frame is opaque (44_dispatch.md R173) -/

/-- The event with another frame. -/
def Event.withFrame (g : Frame) : Event → Event
  | .deliv k m t _ => .deliv k m t g
  | .fprog f => .fprog f

theorem Event.route?_withFrame (g : Frame) (e : Event) : (e.withFrame g).route? = e.route? := by
  cases e <;> rfl

/-- With another frame DISPATCH makes the same deliveries, carrying that frame. -/
theorem deliveries_map_withFrame (s : State) (m : Byte) (f g : Frame) :
    (deliveries s m f).map (Event.withFrame g) = deliveries s m g := by
  simp only [deliveries, mailboxCallbackEvents_eq, mailboxListenerEvents_flatMap, generalCallbackEvents_eq,
    generalListenerEvents_flatMap, List.map_append, List.map_flatMap, List.map_map, apply_ite (List.map _),
    List.map_cons, List.map_nil, Event.withFrame]
  rfl

/-- Settles O54: the second DISPATCH decides on the same tables, and another frame leaves kinds and targets alone. -/
theorem frameOpaque : Obligations.FrameOpaque := by
  intro m f g s hm
  refine ⟨_, _, _, _, exec_dispatch_eq f hm, exec_dispatch_eq (s := s.dispatched m f) g hm, rfl, rfl, ?routes, ?frame,
    rfl⟩
  case routes =>
    rw [deliveries_dispatched, ← deliveries_map_withFrame s m f g, List.map_map]
    exact List.map_congr_left fun e _ => (e.route?_withFrame g).symm
  case frame =>
    intro e he
    obtain ⟨_, -, rfl⟩ | ⟨_, -, -, rfl⟩ | ⟨_, -, -, rfl⟩ | ⟨_, -, -, -, rfl⟩ := mem_deliveries.1 he <;>
      exact ⟨_, _, rfl⟩

/-! ### The deliveries to one handle (44_dispatch.md R170) -/

/-- A slot's delivery goes to the handle that the slot holds. -/
theorem slotDelivery_filter_listener? (s : State) (m : Byte) (f : Frame) (l : Byte) (o : Option Byte) :
    ((slotDelivery s m f o).filter fun e => e.listener? = some (l.setWidth 32)) =
      if o = some l then slotDelivery s m f (some l) else none := by
  cases o with
  | none => rfl
  | some k =>
    by_cases hk : k = l
    · subst hk
      cases hmb : s.maskBit k m.toNat <;> cases hgen : s.maskBit k s.params.nf <;>
        simp [slotDelivery, hmb, hgen, Event.listener?]
    · cases hmb : s.maskBit k m.toNat <;> cases hgen : s.maskBit k s.params.nf <;>
        simp [slotDelivery, hmb, hgen, hk, Event.listener?, handleWord_inj]

/-- A walk over the slots that answers for those that hold `l` answers once for each of them. -/
theorem filterMap_slots_eq_replicate (slots : List (Option Byte)) (l : Byte) (d : Option Event) :
    (slots.filterMap fun o => if o = some l then d else none) =
      d.toList.flatMap (List.replicate (slots.count (some l))) := by
  induction slots with
  | nil => cases d <;> rfl
  | cons o slots ih =>
    by_cases ho : o = some l
    · subst ho
      cases d with
      | none => simp
      | some e => simpa [List.replicate_succ] using ih
    · simp [ho, ih]

/-- A handle gets its delivery once for each slot that holds it. -/
theorem deliveries_to_handle (s : State) (m : Byte) (f : Frame) (l : Byte) :
    ((deliveries s m f).filter fun e => e.listener? = some (l.setWidth 32)) =
      (slotDelivery s m f (some l)).toList.flatMap (List.replicate (s.slotsHolding l)) := by
  have hcb : ((callbackDelivery s m f).toList.filter fun e => e.listener? = some (l.setWidth 32)) = [] := by
    unfold callbackDelivery
    cases s.mbcbAt m <;> cases s.gcb <;> rfl
  have hls : ((s.slots.toList.filterMap (slotDelivery s m f)).filter fun e => e.listener? = some (l.setWidth 32)) =
      (slotDelivery s m f (some l)).toList.flatMap (List.replicate (s.slotsHolding l)) := by
    simp only [List.filter_filterMap, slotDelivery_filter_listener?, filterMap_slots_eq_replicate, State.slotsHolding]
  have hperm := (deliveries_perm s m f).filter fun e => e.listener? = some (l.setWidth 32)
  rw [List.filter_append, hcb, hls, List.nil_append] at hperm
  cases hd : slotDelivery s m f (some l) with
  | none => simpa [hd] using hperm
  | some e => simpa [hd] using hperm

/-- Settles O55: the branches are those of the column of a slot that holds the handle. -/
theorem oneDeliveryPerSlot : Obligations.OneDeliveryPerSlot := by
  intro m f s l hm
  refine ⟨_, _, exec_dispatch_eq f hm, rfl, (deliveries_to_handle s m f l).trans ?_⟩
  cases hmb : s.maskBit l m.toNat <;> cases hgen : s.maskBit l s.params.nf <;> simp [slotDelivery, hmb, hgen]

end Sys2Proof.Machine

namespace Sys2Proof.Machine

/-! ### The watch entry points (45_watch.md R185 to R191) -/

theorem exec_watchAll (s : State) : exec .watchAll s = .next (s.watch s.params.watchAll) := rfl

theorem exec_watchId (a : Word) (s : State) : exec (.watchId a) s = .next (s.watch (filterForId a)) := rfl

theorem exec_watchIdm (a b : Word) (s : State) : exec (.watchIdm a b) s = .next (s.watch (filterForIdMask a b)) := rfl

theorem exec_watchRng (a b : Word) (s : State) : exec (.watchRng a b) s = .next (s.watch (filterForRange a b)) := rfl

/-- Taking the driver's reply changes the port and nothing else. -/
theorem State.takeDrvStat_eq (s : State) :
    s.takeDrvStat = { s with drvIn := s.takeDrvStat.drvIn, drvDraws := s.takeDrvStat.drvDraws } := by
  cases h : s.drvIn with
  | nil => rw [(State.drvStat_nil h).2]
  | cons d rest => rw [(State.drvStat_cons h).2]

/-- The forwarding step, on the port's two fields as they are after the reply has been taken. -/
theorem State.watch_eq (s : State) (f : Filter) :
    s.watch f = { s with
      drvIn := (s.watch f).drvIn
      drvDraws := (s.watch f).drvDraws
      responses := s.responses ++ [⟨.ok, s.drvStat, 0, 0⟩]
      events := s.events ++ [.fprog f] } := by
  rw [State.watch, State.takeDrvStat_eq]
  rfl

/-- Forwarding a filter is what 45_watch.md R185 and R186 say; the driver's word is `drvStat`. -/
theorem watchEffect_watch (s : State) (f : Filter) : WatchEffect s f (s.watch f) :=
  ⟨s.drvStat, fun _ _ hport => (State.drvStat_cons hport).1, State.watch_eq s f⟩

theorem filterForId_eq_ite (a : Word) :
    filterForId a = if a ≤ 0x7FF then ⟨a, 0x7FF, false⟩ else ⟨a, 0x1FFFFFFF, true⟩ := by
  split
  case isTrue h => exact filterForId_of_le h
  case isFalse h => exact filterForId_of_lt (BitVec.not_le.1 h)

/-- Settles O33: the filter forwarded is the parameter as the state holds it. -/
theorem watchAllForwards : Obligations.WatchAllForwards :=
  fun s => ⟨rfl, _, exec_watchAll s, watchEffect_watch s _⟩

/-- Settles O34: each command forwards its filter, and the model's closed form for a range is the scan. -/
theorem watchFilterForwards : Obligations.WatchFilterForwards := by
  intro a b s
  refine ⟨⟨rfl, _, exec_watchId a s, ?id⟩, ⟨rfl, _, exec_watchIdm a b s, ?idMask⟩, rfl, _, exec_watchRng a b s, ?range⟩
  case id => rw [← filterForId_eq_ite]; exact watchEffect_watch s _
  case idMask => exact watchEffect_watch s _
  case range => rw [filterForRangeScan_eq]; exact watchEffect_watch s _

/-- Settles O35: the SYN command answers the very filter that the WATCH command forwards. -/
theorem watchForwardsSyn : Obligations.WatchForwardsSyn := by
  intro a b s i j hpair
  have hfilter : ∃ f, exec i s = .next (s.replyFilter f) ∧ exec j s = .next (s.watch f) := by
    obtain ⟨rfl, rfl⟩ | ⟨rfl, rfl⟩ | ⟨rfl, rfl⟩ := hpair
    · exact ⟨_, exec_synId a s, exec_watchId a s⟩
    · exact ⟨_, exec_synIdm a b s, exec_watchIdm a b s⟩
    · exact ⟨_, exec_synRng a b s, exec_watchRng a b s⟩
  obtain ⟨f, hsyn, hwatch⟩ := hfilter
  refine ⟨f, s.watch f, ?answer, hwatch, State.watch_events s f, rfl⟩
  case answer => rw [hsyn]; exact lastResponse_of_answered rfl

end Sys2Proof.Machine

namespace Sys2Proof.Machine

/-! ### Idle at the command port (60_exceptions.md R221, 70_reset_and_hazards.md R232) -/

/-- A packet's words are no reset input. -/
theorem asInputs_contains_reset (ws : List Word) : (asInputs ws).contains .reset = false := by
  simp [asInputs]

/-- Words that are no whole packet, with nothing behind them, leave the block idle. -/
theorem fetch_of_decode_incomplete {ws : List Word} (h : decode ws = .incomplete) : fetch (asInputs ws) = .idle := by
  cases ws with
  | nil => rfl
  | cons w ws =>
    have hf := fetch_asInputs (rest := []) (List.cons_ne_nil w ws)
    simpa only [leadingWords, List.append_nil, h, asInputs_contains_reset, Bool.false_eq_true, if_false] using hf

/-- Settles O8: an idle fetch leaves the state as it is. -/
theorem idleStep : Obligations.IdleStep := by
  intro s ws hin hdec
  rw [step, hin, fetch_of_decode_incomplete hdec]

/-! ### Errors are precise (60_exceptions.md R204) -/

/-- Settles O16: only the bare reply can carry a status other than OK, and it then has zero result words. -/
theorem errorsArePrecise : Obligations.ErrorsArePrecise := by
  intro i s t h
  obtain ⟨st, r0, r1, r2, rfl, hzero⟩ | ⟨f, rfl, -⟩ | ⟨_, _, -, rfl, -⟩ | ⟨_, -, rfl⟩ | ⟨_, _, -, -, -, rfl⟩ |
    ⟨_, _, -, -, -, rfl⟩ | ⟨_, _, _, -, -, rfl, -⟩ | ⟨_, _, -, -, rfl⟩ | ⟨_, _, -, -, rfl⟩ := exec_answered_cases h
  case inl =>
    refine ⟨⟨st, r0, r1, r2⟩, rfl, fun hst => ?_⟩
    obtain ⟨rfl, rfl, rfl⟩ := hzero hst
    exact ⟨rfl, rfl⟩
  case inr.inl => exact ⟨_, State.watch_responses s f, fun hst => absurd rfl hst⟩
  all_goals exact ⟨_, rfl, fun hst => absurd rfl hst⟩

/-! ### The status of each command's response (60_exceptions.md R201, R207) -/

/-- The status of the response an outcome sent last, if any. -/
def statusOf (o : Outcome) : Option Status := (lastResponse o).map (·.status)

/-- A meaning that ends in a reply answers the reply's status. -/
@[simp] theorem statusOf_reply (s : State) (st : Status) (r0 r1 r2 : Word) :
    statusOf (.next (s.reply st r0 r1 r2)) = some st := by
  rw [statusOf, lastResponse_of_answered (s := s) (r := ⟨st, r0, r1, r2⟩) rfl, Option.map_some]

@[simp] theorem statusOf_replyOk (s : State) : statusOf (.next s.replyOk) = some .ok := statusOf_reply s .ok 0 0 0

/-- The fault of an Illegal command carries the answer 0xFF (R203). -/
@[simp] theorem statusOf_raiseIllegal (c : IllegalCase) (s : State) : statusOf (raiseIllegal c s) = some .illegal :=
  statusOf_reply s .illegal 0 0 0

/-- The SYN commands answer OK. -/
theorem statusOf_replyFilter (s : State) (f : Filter) : statusOf (.next (s.replyFilter f)) = some .ok :=
  statusOf_reply s .ok _ _ _

/-- The WATCH commands answer OK, whatever the driver replied. -/
theorem statusOf_watch (s : State) (f : Filter) : statusOf (.next (s.watch f)) = some .ok :=
  statusOf_reply _ .ok _ _ _

theorem statusOf_setMbcb (m : Byte) (w : Word) (s : State) :
    statusOf (exec (.setMbcb m w) s) = some (if m.toNat < s.params.nf then .ok else .invalidMailbox) := by
  split
  case isTrue hm => rw [exec_setMbcb_in w hm, statusOf_replyOk]
  case isFalse hm => rw [exec_setMbcb_out w (Nat.le_of_not_lt hm), statusOf_reply]

theorem statusOf_clrMbcb (m : Byte) (s : State) :
    statusOf (exec (.clrMbcb m) s) = some (if m.toNat < s.params.nf then .ok else .invalidMailbox) := by
  split
  case isTrue hm => rw [exec_clrMbcb_in hm, statusOf_replyOk]
  case isFalse hm => rw [exec_clrMbcb_out (Nat.le_of_not_lt hm), statusOf_reply]

/-- ATTACH checks the handle first, then looks for a free slot. -/
theorem statusOf_attach (l : Byte) (s : State) [Decidable (∃ i : Fin 4, s.slots[i] = none)] :
    statusOf (exec (.attach l) s) =
      some (if s.params.nl ≤ l.toNat then .illegal else if ∃ i : Fin 4, s.slots[i] = none then .ok else .registryFull) := by
  split
  case isTrue hl => rw [exec_attach_out hl, statusOf_raiseIllegal]
  case isFalse hl =>
    have hl := Nat.lt_of_not_le hl
    cases hk : s.firstFree with
    | none => rw [exec_attach_full hl hk, statusOf_reply, if_neg (not_exists.2 (State.firstFree_eq_none.1 hk))]
    | some k => rw [exec_attach_free hl hk, statusOf_replyOk, if_pos ⟨k, (State.firstFree_eq_some.1 hk).left⟩]

/-- DETACH checks the handle first, then looks for a slot that holds it. -/
theorem statusOf_detach (l : Byte) (s : State) [Decidable (∃ i : Fin 4, s.slots[i] = some l)] :
    statusOf (exec (.detach l) s) =
      some (if s.params.nl ≤ l.toNat then .illegal else if ∃ i : Fin 4, s.slots[i] = some l then .ok else .notFound) := by
  split
  case isTrue hl => rw [exec_detach_out hl, statusOf_raiseIllegal]
  case isFalse hl =>
    have hl := Nat.lt_of_not_le hl
    cases hk : s.firstHolding l with
    | none => rw [exec_detach_notFound hl hk, statusOf_reply, if_neg (not_exists.2 (State.firstHolding_eq_none.1 hk))]
    | some k => rw [exec_detach_found hl hk, statusOf_replyOk, if_pos ⟨k, (State.firstHolding_eq_some.1 hk).left⟩]

/-- EN.MB and DIS.MB check the handle first, then the mailbox index. -/
theorem statusOf_writeMailboxBit (b : Bool) (l m : Byte) (s : State) :
    statusOf (writeMailboxBit b l m s) =
      some (if s.params.nl ≤ l.toNat then .illegal else if m.toNat < s.params.nf then .ok else .invalidMailbox) := by
  split
  case isTrue hl => rw [writeMailboxBit_out b m hl, statusOf_raiseIllegal]
  case isFalse hl =>
    have hl := Nat.lt_of_not_le hl
    split
    case isTrue hm => rw [writeMailboxBit_in b hl hm, statusOf_replyOk]
    case isFalse hm => rw [writeMailboxBit_badMailbox b hl (Nat.le_of_not_lt hm), statusOf_reply]

theorem statusOf_writeGeneralBit (b : Bool) (l : Byte) (s : State) :
    statusOf (writeGeneralBit b l s) = some (if s.params.nl ≤ l.toNat then .illegal else .ok) := by
  split
  case isTrue hl => rw [writeGeneralBit_out b hl, statusOf_raiseIllegal]
  case isFalse hl => rw [writeGeneralBit_in b (Nat.lt_of_not_le hl), statusOf_replyOk]

/-- IS.EN is Illegal by its handle or by its bit index. -/
theorem statusOf_isEn (l j : Byte) (s : State) :
    statusOf (exec (.isEn l j) s) = some (if s.params.nl ≤ l.toNat ∨ s.params.nf < j.toNat then .illegal else .ok) := by
  rcases Nat.lt_or_ge l.toNat s.params.nl with hl | hl
  · rcases Nat.lt_or_ge s.params.nf j.toNat with hj | hj
    · rw [exec_isEn_badBit hl hj, statusOf_raiseIllegal, if_pos (.inr hj)]
    · rw [exec_isEn_in hl hj, statusOf_reply, if_neg (not_or.2 ⟨Nat.not_le.2 hl, Nat.not_lt.2 hj⟩)]
  · rw [exec_isEn_out j hl, statusOf_raiseIllegal, if_pos (.inl hl)]

theorem statusOf_dispatch (m : Byte) (f : Frame) (s : State) :
    statusOf (exec (.dispatch m f) s) = some (if m.toNat < s.params.nf then .ok else .illegal) := by
  split
  case isTrue hm => rw [exec_dispatch_in f hm, statusOf_reply]
  case isFalse hm => rw [exec_dispatch_out f (Nat.le_of_not_lt hm), statusOf_raiseIllegal]

/-- Settles O18: the table of R201, row by row. -/
theorem statusTable : Obligations.StatusTable := by
  intro s
  refine ⟨?syn, ?watch, ?mbcb, ?gcb, ?attach, ?detach, ?mailboxBit, ?generalBit, ?isEn, ?dispatch, ?rdDrop⟩
  case syn => exact fun _ _ => ⟨statusOf_replyFilter s _, statusOf_replyFilter s _, statusOf_replyFilter s _⟩
  case watch => exact fun _ _ => ⟨statusOf_watch s _, statusOf_watch s _, statusOf_watch s _, statusOf_watch s _⟩
  case mbcb => exact fun m w => ⟨statusOf_setMbcb m w s, statusOf_clrMbcb m s⟩
  case gcb => exact fun w => statusOf_replyOk (s.setGcb w)
  case attach => exact fun l => statusOf_attach l s
  case detach => exact fun l => statusOf_detach l s
  case mailboxBit => exact fun l m => ⟨statusOf_writeMailboxBit true l m s, statusOf_writeMailboxBit false l m s⟩
  case generalBit => exact fun l => ⟨statusOf_writeGeneralBit true l s, statusOf_writeGeneralBit false l s⟩
  case isEn => exact fun l j => statusOf_isEn l j s
  case dispatch => exact fun m f => statusOf_dispatch m f s
  case rdDrop => exact statusOf_reply s .ok s.drops 0 0

end Sys2Proof.Machine

namespace Sys2Proof.Machine

/-! ### The reset input (70_reset_and_hazards.md R230 to R232) -/

theorem step_reset {s : State} {rest : List Input} (h : s.inputs = .reset :: rest) :
    step s = .next { s.applyReset with inputs := rest } := by
  rw [step, h, fetch_reset]

/-- Settles O9: the registry of the state after the reset input is that of `State.resetOf`. -/
theorem resetInput : Obligations.ResetInput := by
  intro s rest h
  obtain ⟨-, -, -, -, -, hslots, -⟩ := resetValues s.params
  exact ⟨_, step_reset h, s.applyReset_mbcb, s.applyReset_gcb, hslots, s.applyReset_lmask, s.applyReset_drops, rfl, rfl,
    rfl⟩

/-! ### Bits enabled before ATTACH (70_reset_and_hazards.md R236) -/

/-- An ATTACH that answers OK has a known handle and a free slot; the two error answers have another status. -/
theorem exec_attach_next_ok {s t : State} {l : Byte} (h : exec (.attach l) s = .next t)
    (hok : t.responses = s.responses ++ [⟨.ok, 0, 0, 0⟩]) :
    l.toNat < s.params.nl ∧ ∃ k, t = ((s.setSlot k (some l)).setMask l 0).replyOk := by
  rcases Nat.lt_or_ge l.toNat s.params.nl with hl | hl
  · obtain ⟨l', k, hi, -, ht⟩ | ⟨l', k, hi, -, -⟩ | ⟨-, herr⟩ := exec_answered_slots (answered_of_next h)
    · cases hi
      exact ⟨hl, k, ht⟩
    · cases hi
    · exact absurd hok (herr (.inl rfl))
  · rw [exec_attach_out hl] at h
    cases h

/-- IS.EN of a bit that is not set answers OK with 0. -/
theorem lastResponse_isEn_of_clear {s : State} {l i : Byte} (hl : l.toNat < s.params.nl) (hi : i.toNat ≤ s.params.nf)
    (hbit : s.maskBit l i.toNat = false) : lastResponse (exec (.isEn l i) s) = some ⟨.ok, 0, 0, 0⟩ := by
  rw [exec_isEn_in hl hi, hbit]
  exact lastResponse_of_answered rfl

/-- A handle whose mailbox bit and general bit are both clear gets no delivery, whatever slots hold it. -/
theorem listener?_ne_of_clear {s : State} {m : Byte} {f : Frame} {l : Byte} (hmb : s.maskBit l m.toNat = false)
    (hgen : s.maskBit l s.params.nf = false) {e : Event} (he : e ∈ deliveries s m f) :
    e.listener? ≠ some (l.setWidth 32) := by
  have hnone : slotDelivery s m f (some l) = none := slotDelivery_eq_none.2 ⟨hmb, hgen⟩
  have hfilter := deliveries_to_handle s m f l
  rw [hnone] at hfilter
  simpa using List.filter_eq_nil_iff.1 hfilter e he

/-- DETACH leaves every mask (R132). -/
theorem exec_detach_lmask {s v : State} {l : Byte} (h : exec (.detach l) s = .next v) : v.lmask = s.lmask := by
  obtain ⟨-, -, -, -, hlmask, -⟩ := exec_answered_writes (answered_of_next h)
  exact by_contra fun hne => absurd (hlmask hne) (by simp [Instr.op])

/-- Settles O58: after the ATTACH the whole mask of the handle is clear, which IS.EN reads and DISPATCH decides on. -/
theorem attachBeforeEnable : Obligations.AttachBeforeEnable := by
  intro s t l hinv h hok
  obtain ⟨hl, k, rfl⟩ := exec_attach_next_ok h hok
  have hclear : ∀ j, ((s.setSlot k (some l)).setMask l 0).replyOk.maskBit l j = false :=
    State.setMask_zero_maskBit (hinv.lmask_length ▸ hl)
  refine ⟨fun i hi => lastResponse_isEn_of_clear hl hi (hclear _), fun m f hm => ?dispatch, fun v => exec_detach_lmask⟩
  case dispatch => exact ⟨_, _, exec_dispatch_eq f hm, rfl, fun e => listener?_ne_of_clear (hclear _) (hclear _)⟩

end Sys2Proof.Machine
